-- ==== Sys2Proof/Word.lean ====
section
/-! DEFINITION. The word types of XBFC (spec/00_scope.md R9): a byte is an unsigned 8-bit value, a half an unsigned
16-bit value. No value of the block is signed. -/

namespace Sys2Proof

/-- One byte: a port transfer, a STORE slot, the operand A, CTRL, CK_ACC (R9, R33, R34). -/
abbrev Byte := BitVec 8

/-- One 16-bit value: the operand B, RESULT, and the registers HEAD, TAIL, SIZE (R9, R24 to R26). -/
abbrev Half := BitVec 16

end Sys2Proof
end

