-- ==== Sys2Proof/Syntax.lean ====
section
/-! DEFINITION. The commands of the block: one constructor per row of spec/opcode_table.json (spec/30_encoding.md R83),
with the operands of its format (R81, R82). For the three commands with a data tail the operand that counts the tail
(A of SEND, B of RECV and RB.ENQSEQ) is the length of the list held here; WellFormed.lean says when it fits its field. -/

namespace Sys2Proof

/-- A complete command (R83). -/
inductive Instr where
  /-- `NOP`, 0x00, F0 (R180). -/
  | nop
  /-- `RESET`, 0x01, F0 (R181). -/
  | reset
  /-- `RDCTRL`, 0x02, F0 (R183). -/
  | rdctrl
  /-- `WRCTRL a`, 0x03, FA (R184). -/
  | wrctrl (a : Byte)
  /-- `RDSTAT`, 0x04, F0 (R185). -/
  | rdstat
  /-- `ESC.INIT`, 0x10, F0 (R110). -/
  | escInit
  /-- `ESC.PUT b`, 0x11, FA (R111). -/
  | escPut (b : Byte)
  /-- `UNE.INIT`, 0x18, F0 (R113). -/
  | uneInit
  /-- `UNE.PUT b`, 0x19, FA (R114). -/
  | unePut (b : Byte)
  /-- `UNE.END`, 0x1A, F0 (R115). -/
  | uneEnd
  /-- `CK.INIT`, 0x20, F0 (R117). -/
  | ckInit
  /-- `CK.ADD b`, 0x21, FA (R118). -/
  | ckAdd (b : Byte)
  /-- `CK.GET`, 0x22, F0 (R119). -/
  | ckGet
  /-- `CK.RAW`, 0x23, F0 (R120). -/
  | ckRaw
  /-- `CK.TEST`, 0x24, F0 (R121). -/
  | ckTest
  /-- `SEND [payload], addr`, 0x30, FAB, tail of A bytes (R131): A is the length of `payload`, B is `addr`. -/
  | send (addr : Half) (payload : List Byte)
  /-- `RECV [w]`, 0x31, FB, tail of B bytes (R133): B is the length of `w`. -/
  | recv (w : List Byte)
  /-- `RB.ENQ b`, 0x40, FA (R151). -/
  | rbEnq (b : Byte)
  /-- `RB.DEQ`, 0x41, F0 (R152). -/
  | rbDeq
  /-- `RB.ENQSEQ [d]`, 0x42, FB, tail of B bytes (R153): B is the length of `d`. -/
  | rbEnqseq (d : List Byte)
  /-- `RB.PEEK off`, 0x43, FB (R154). -/
  | rbPeek (off : Half)
  /-- `RB.COPY start`, 0x44, FB (R155). -/
  | rbCopy (start : Half)
  /-- `RB.CLEAR upto`, 0x45, FB (R156). -/
  | rbClear (upto : Half)
  /-- `RB.SIZE`, 0x46, F0 (R157). -/
  | rbSize
  /-- `RB.HEAD`, 0x47, F0 (R158). -/
  | rbHead
  /-- `RB.TAIL`, 0x48, F0 (R159). -/
  | rbTail
  /-- `RB.EMPTY`, 0x49, F0 (R160). -/
  | rbEmpty
  /-- `RB.FULL`, 0x4A, F0 (R161). -/
  | rbFull
  deriving DecidableEq, Repr

end Sys2Proof
end

