-- ==== Sys2Proof/WellFormed.lean ====
section
/-! DEFINITION. Which terms of Instr are commands: the length of a data tail must fit the operand that counts it
(spec/30_encoding.md R81, R88: "An operand out of its field's range is an assembly error, not a command"). Every value
of A and B is legal (R90), so no other check exists. -/

namespace Sys2Proof

/-- R88: the list of SEND has at most 255 bytes, those of RECV and RB.ENQSEQ at most 65535. -/
def Instr.wellFormed : Instr → Bool
  | .nop => true
  | .reset => true
  | .rdctrl => true
  | .wrctrl _ => true
  | .rdstat => true
  | .escInit => true
  | .escPut _ => true
  | .uneInit => true
  | .unePut _ => true
  | .uneEnd => true
  | .ckInit => true
  | .ckAdd _ => true
  | .ckGet => true
  | .ckRaw => true
  | .ckTest => true
  | .send _ payload => payload.length ≤ 255
  | .recv w => w.length ≤ 65535
  | .rbEnq _ => true
  | .rbDeq => true
  | .rbEnqseq d => d.length ≤ 65535
  | .rbPeek _ => true
  | .rbCopy _ => true
  | .rbClear _ => true
  | .rbSize => true
  | .rbHead => true
  | .rbTail => true
  | .rbEmpty => true
  | .rbFull => true

end Sys2Proof
end

