-- ==== Sys2Proof/Decode.lean ====
section
/-! DEFINITION. Command encodings (spec/30_encoding.md R81 to R85): the byte-order helpers, the decoder from the
command port's byte stream, the encoder from commands to bytes, the pseudo-instructions of R89, and the host's view of a
table word. The decoder is total (R90): it gives a command, the rejection of an illegal opcode by its byte, or the wait
for more bytes. -/

namespace Sys2Proof

/-! ### 16-bit fields on the ports are big-endian (spec/20_memory.md R53) -/

/-- Bits 15:8 of a 16-bit value. -/
def hiByte (w : Half) : Byte := w.extractLsb' 8 8

/-- Bits 7:0 of a 16-bit value. -/
def loByte (w : Half) : Byte := w.extractLsb' 0 8

/-- R82: `B = byte_hi·256 + byte_lo`. -/
def be16 (hi lo : Byte) : Half := hi ++ lo

/-! ### The decoder -/

/-- What the front of a byte stream is (R84, R85, R90). -/
inductive Decoded where
  /-- A complete command and the bytes after it. -/
  | cmd (i : Instr) (rest : List Byte)
  /-- An illegal opcode byte (R85), a 1-byte command, and the bytes after it. -/
  | illegal (opc : Byte) (rest : List Byte)
  /-- Fewer bytes than the command requires (R84). -/
  | incomplete
  deriving DecidableEq, Repr

/-- The operand of format FA: one byte (R81). -/
def takeA (r : List Byte) (mk : Byte → Instr) : Decoded :=
  match r with
  | a :: rest => .cmd (mk a) rest
  | [] => .incomplete

/-- The operand of format FB: two bytes, high byte first (R81, R82). -/
def takeB (r : List Byte) (mk : Half → Instr) : Decoded :=
  match r with
  | hi :: lo :: rest => .cmd (mk (be16 hi lo)) rest
  | _ => .incomplete

/-- A data tail of `n` bytes (R84): taken only when it has arrived in full. -/
def takeTail (n : Nat) (r : List Byte) (mk : List Byte → Instr) : Decoded :=
  if n ≤ r.length then .cmd (mk (r.take n)) (r.drop n) else .incomplete

/-- Format FB with a tail of B bytes (RECV, RB.ENQSEQ). -/
def takeBTail (r : List Byte) (mk : List Byte → Instr) : Decoded :=
  match r with
  | hi :: lo :: rest => takeTail (be16 hi lo).toNat rest mk
  | _ => .incomplete

/-- Format FAB with a tail of A bytes (SEND). -/
def takeABTail (r : List Byte) (mk : Half → List Byte → Instr) : Decoded :=
  match r with
  | a :: hi :: lo :: rest => takeTail a.toNat rest (mk (be16 hi lo))
  | _ => .incomplete

/-- The command after its opcode byte: the opcode map of R83, every other byte illegal (R85). -/
def decodeOpcode (opc : Byte) (r : List Byte) : Decoded :=
  match opc.toNat with
  | 0x00 => .cmd .nop r
  | 0x01 => .cmd .reset r
  | 0x02 => .cmd .rdctrl r
  | 0x03 => takeA r .wrctrl
  | 0x04 => .cmd .rdstat r
  | 0x10 => .cmd .escInit r
  | 0x11 => takeA r .escPut
  | 0x18 => .cmd .uneInit r
  | 0x19 => takeA r .unePut
  | 0x1A => .cmd .uneEnd r
  | 0x20 => .cmd .ckInit r
  | 0x21 => takeA r .ckAdd
  | 0x22 => .cmd .ckGet r
  | 0x23 => .cmd .ckRaw r
  | 0x24 => .cmd .ckTest r
  | 0x30 => takeABTail r .send
  | 0x31 => takeBTail r .recv
  | 0x40 => takeA r .rbEnq
  | 0x41 => .cmd .rbDeq r
  | 0x42 => takeBTail r .rbEnqseq
  | 0x43 => takeB r .rbPeek
  | 0x44 => takeB r .rbCopy
  | 0x45 => takeB r .rbClear
  | 0x46 => .cmd .rbSize r
  | 0x47 => .cmd .rbHead r
  | 0x48 => .cmd .rbTail r
  | 0x49 => .cmd .rbEmpty r
  | 0x4A => .cmd .rbFull r
  | _ => .illegal opc r

/-- The front of the command port's byte stream (R84, R90). -/
def decode (bs : List Byte) : Decoded :=
  match bs with
  | [] => .incomplete
  | opc :: r => decodeOpcode opc r

/-! ### The encoder -/

/-- The bytes of a command (R81 to R83). -/
def encode : Instr → List Byte
  | .nop => [0x00]
  | .reset => [0x01]
  | .rdctrl => [0x02]
  | .wrctrl a => [0x03, a]
  | .rdstat => [0x04]
  | .escInit => [0x10]
  | .escPut b => [0x11, b]
  | .uneInit => [0x18]
  | .unePut b => [0x19, b]
  | .uneEnd => [0x1A]
  | .ckInit => [0x20]
  | .ckAdd b => [0x21, b]
  | .ckGet => [0x22]
  | .ckRaw => [0x23]
  | .ckTest => [0x24]
  | .send addr p => [0x30, BitVec.ofNat 8 p.length, hiByte addr, loByte addr] ++ p
  | .recv w => [0x31, hiByte (BitVec.ofNat 16 w.length), loByte (BitVec.ofNat 16 w.length)] ++ w
  | .rbEnq b => [0x40, b]
  | .rbDeq => [0x41]
  | .rbEnqseq d => [0x42, hiByte (BitVec.ofNat 16 d.length), loByte (BitVec.ofNat 16 d.length)] ++ d
  | .rbPeek off => [0x43, hiByte off, loByte off]
  | .rbCopy start => [0x44, hiByte start, loByte start]
  | .rbClear upto => [0x45, hiByte upto, loByte upto]
  | .rbSize => [0x46]
  | .rbHead => [0x47]
  | .rbTail => [0x48]
  | .rbEmpty => [0x49]
  | .rbFull => [0x4A]

/-! ### Pseudo-instructions (R89) -/

/-- `SEND [p…]` with the address omitted: the source's default 0xFFFF. -/
def pseudoSend (p : List Byte) : Instr := .send 0xFFFF p

/-- `RB.CLEARALL`. -/
def pseudoClearAll : Instr := .rbClear 0xFFFF

/-- `ESC.SEQ [b0, …, bk]`. -/
def pseudoEscSeq (bs : List Byte) : List Instr := .escInit :: bs.map .escPut

/-- `UNE.SEQ [b0, …, bk]`. -/
def pseudoUneSeq (bs : List Byte) : List Instr := .uneInit :: bs.map .unePut ++ [.uneEnd]

/-- `CK.SEQ [b0, …, bk]`. -/
def pseudoCkSeq (bs : List Byte) : List Instr := .ckInit :: bs.map .ckAdd ++ [.ckGet]

/-! ### Command length (R84) and table words -/

/-- The byte of a header at index `k`, or 0 where the header is not that long. -/
def headerByte (bs : List Byte) (k : Nat) : Byte := (bs[k]?).getD 0

/-- R84: header bytes of the format plus tail bytes, from the opcode and, for the three commands with a tail, from the
operand that counts it. An illegal opcode is a 1-byte command (R85). -/
def commandLength (bs : List Byte) : Nat :=
  match (headerByte bs 0).toNat with
  | 0x03 | 0x11 | 0x19 | 0x21 | 0x40 => 2
  | 0x43 | 0x44 | 0x45 => 3
  | 0x31 | 0x42 => 3 + (be16 (headerByte bs 1) (headerByte bs 2)).toNat
  | 0x30 => 4 + (headerByte bs 1).toNat
  | _ => 1

/-- The first `n` bytes of a number, byte k being its bits 8k+7..8k. -/
def bytesOf : Nat → Nat → List Byte
  | 0, _ => []
  | n + 1, w => BitVec.ofNat 8 w :: bytesOf n (w / 256)

/-- A table word as the command port receives it: its `nbits` bits as bytes, first byte first, then zeros up to the
command's own length. -/
def tableBytes (nbits w : Nat) : List Byte :=
  let raw := bytesOf (nbits / 8) w
  (raw ++ List.replicate (commandLength raw - raw.length) 0).take (commandLength raw)

/-- The command the decoder reads from a table word, none where it gives no command. -/
def decodeTableWord (nbits w : Nat) : Option Instr :=
  match decode (tableBytes nbits w) with
  | .cmd i _ => some i
  | .illegal _ _ => none
  | .incomplete => none

end Sys2Proof
end

