-- ==== Sys2Proof/Config.lean ====
section
/-! DEFINITION. The implementation parameters of the block (spec/00_scope.md R8): CAP, SCRATCH_SIZE and RIN_SIZE with
their legal ranges and defaults, and what R8 derives from them. A model takes each as an argument, so they are a record
that the state carries and no step writes (notes/assumptions/1.md). The block has no free value: every value an
instruction can leave is given by a rule. -/

namespace Sys2Proof

/-- The three parameters of R8. -/
structure Config where
  /-- `CAP`: capacity of the ring in bytes. -/
  cap : Nat
  /-- `SCRATCH_SIZE`: size of the unescaped frame buffer of SEND. -/
  scratchSize : Nat
  /-- `RIN_SIZE`: largest RECV input window. -/
  rinSize : Nat
  deriving DecidableEq, Repr

/-- R8's defaults: CAP 220, SCRATCH_SIZE 100, RIN_SIZE 256. -/
def Config.standard : Config := ⟨220, 100, 256⟩

/-- R8's legal ranges. "A value outside its range is not a configuration of this block." -/
abbrev Config.Legal (c : Config) : Prop :=
  1 ≤ c.cap ∧ c.cap ≤ 65535 ∧ 9 ≤ c.scratchSize ∧ c.scratchSize ≤ 259 ∧
    2 * c.scratchSize - 1 ≤ c.rinSize ∧ c.rinSize ≤ 65535

/-- R8: `MAX_PAYLOAD = SCRATCH_SIZE − 9`. -/
def Config.maxPayload (c : Config) : Nat := c.scratchSize - 9

/-- R8: `MIN_FRAME_LEN`, fixed. -/
def Config.minFrameLen : Nat := 10

end Sys2Proof
end

