-- ==== Sys2Proof/Machine/State.lean ====
section
/-! DEFINITION. Everything the spec gives the machine (spec/10_state.md R20 to R41), as plain data, with the reset values
of R39; the events at its three ports and its reset input (spec/30_encoding.md R80, spec/70_reset_and_hazards.md R231);
and the reasons a step can stop. -/

namespace Sys2Proof.Machine

/-- The ring storage `STORE` (R23): the slots that do not hold 0x00, by physical index, in one canonical form
(Ops.lean, `Memory.wf`). -/
abbrev Memory := List Host.Cell

/-- `ESC_ST` (R31): 0 = FIRST, 1 = REST. -/
inductive EscState where
  /-- The next byte is the first of a sequence and passes unescaped. -/
  | first
  /-- The next byte is escaped if reserved. -/
  | rest
  deriving DecidableEq, Repr

/-- `UNE_ST` (R32): 0 = FIRST, 1 = NORMAL, 2 = ESCAPED. The unused code 3 is no state: no command writes it and no
reachable state holds it (spec/93_implementation_defined.md S1). -/
inductive UneState where
  /-- The next byte is the first and is copied unchanged. -/
  | first
  /-- A byte other than 0x7D is copied, 0x7D starts an escape. -/
  | normal
  /-- A 0x7D has been consumed, the next byte is XORed with 0x20. -/
  | escaped
  deriving DecidableEq, Repr

/-- The status codes (spec/60_exceptions.md R200), the only ones ever sent. -/
inductive Status where
  /-- 0x00, success. -/
  | ok
  /-- 0x01, opcode byte not in the opcode map. -/
  | illegalCommand
  /-- 0x02, RECV input longer than RIN_SIZE. -/
  | badOperand
  /-- 0x10, RECV input does not start with 0x7E. -/
  | badDelimiter
  /-- 0x11, RECV input shorter than 10 bytes. -/
  | tooShort
  /-- 0x12, declared length fails the LENPOL check. -/
  | lengthMismatch
  /-- 0x13, checksum sum is not 0xFF. -/
  | checksumMismatch
  /-- 0x14, input ends with an unpaired 0x7D. -/
  | danglingEscape
  /-- 0x18, SEND payload longer than MAX_PAYLOAD. -/
  | payloadTooLarge
  /-- 0x20, ring full at enqueue. -/
  | bufferFull
  /-- 0x21, ring empty. -/
  | bufferUnderrun
  /-- 0x22, offset at or past SIZE on a non-empty ring. -/
  | outOfRange
  deriving DecidableEq, Repr

/-- One transfer at a port, or the reset input (R80, R231). The block's agents act only through these (R218). -/
inductive PortEvent where
  /-- The host sends one byte on the command port. -/
  | cmdByte (b : Byte)
  /-- The serial-receive collaborator delivers one byte on the push port (R58). -/
  | push (b : Byte)
  /-- The host reads one byte from the response port (R37). -/
  | hostRead
  /-- The platform asserts the reset input (R231). -/
  | resetInput
  deriving DecidableEq, Repr

/-- The state of the block, its parameters, and its ports' surroundings. -/
structure State where
  /-- The parameters of R8, fixed for the machine: no step writes them. -/
  cfg : Config
  /-- `STORE`, CAP bytes (R23). -/
  store : Memory
  /-- `HEAD`, 16 bits: physical index of the oldest byte (R24). -/
  head : Half
  /-- `TAIL`, 16 bits: physical index of the next free slot (R25). -/
  tail : Half
  /-- `SIZE`, 16 bits: number of bytes held (R26). -/
  size : Half
  /-- `ESC_ST`, 1 bit (R31). -/
  escSt : EscState
  /-- `UNE_ST`, 2 bits (R32). -/
  uneSt : UneState
  /-- `CK_ACC`, 8 bits: the checksum accumulator (R33). -/
  ckAcc : Byte
  /-- `CTRL`, 8 bits: LENPOL in bit 0, CLRCNT in bit 1, bits 7:2 reserved (R34). -/
  ctrl : Byte
  /-- `CPB`: the bytes of a command that has begun to arrive but is not yet complete (R36). -/
  cpb : List Byte
  /-- `RSPQ`: the response bytes produced and not yet read, oldest first (R37). -/
  rspq : List Byte
  /-- The model's own: the port events still to come, the next first. Their order is the total order of R59. -/
  inputs : List PortEvent
  /-- The model's own: the acknowledge bits returned to the pusher (R58, R162), oldest first. -/
  acks : List Bool
  /-- The model's own: the response bytes the host has read (R37), oldest first. -/
  hostRx : List Byte
  deriving DecidableEq, Repr

/-- R39, for a block with given parameters: every register 0, FIRST or empty, STORE all zero, and nothing pending at the
ports. -/
def State.resetWith (c : Config) : State where
  cfg := c
  store := []
  head := 0
  tail := 0
  size := 0
  escSt := .first
  uneSt := .first
  ckAcc := 0
  ctrl := 0
  cpb := []
  rspq := []
  inputs := []
  acks := []
  hostRx := []

/-- The machine right after reset (R39), with the default parameters of R8. -/
def State.reset : State := State.resetWith Config.standard

/-- Why the machine stops with a fault. The spec gives the block no trap and no fault (R210): this one reason is for an
access to an address the spec says does not exist. -/
inductive Fault where
  /-- A STORE access at a physical index outside 0..CAP−1 (R50, R62). Raised by `readSlot` and `writeSlot`, so by
  RB.ENQ, RB.ENQSEQ, RB.DEQ and a push in a state whose HEAD or TAIL is at or past CAP. R24, R25 say that no such state
  occurs, and no step from a state with the ring invariant raises it. Safe: the model stops where the block has no
  behaviour. -/
  | noSuchSlot
  deriving DecidableEq, Repr

/-- Why the model gives a step no meaning. -/
inductive Refusal where
  /-- The command has no meaning in this model yet. Raised by the dispatch arm of that command. Safe. No arm raises it. -/
  | notModelled (mnemonic : String)
  /-- The parameters are outside the legal ranges of R8: "not a configuration of this block", refused as
  spec/93_implementation_defined.md S9 says. Raised by `step`. Safe. -/
  | notAConfiguration
  deriving DecidableEq, Repr

end Sys2Proof.Machine
end

