-- ==== Sys2Proof/Machine/Operands.lean ====
section
/-! DEFINITION. How operands and results are read as numbers (spec/30_encoding.md R82, spec/00_scope.md R9, R10): all
unsigned, nothing sign-extended, scaled or shifted. Assembling B from its two bytes is `be16` in Decode.lean. -/

namespace Sys2Proof.Machine

/-- `zext_16` of a byte (R9). -/
def zext16 (b : Byte) : Half := b.setWidth 16

/-- A count or index as a 16-bit field (R26, R53, R86). Every count of the block fits: R8 bounds CAP and RIN_SIZE by
65535. -/
def half (n : Nat) : Half := BitVec.ofNat 16 n

/-- A 16-bit field as two bytes, high byte first (R53). -/
def halfBytes (w : Half) : List Byte := [hiByte w, loByte w]

/-- `a + b mod 256` (R10, R118). -/
def addMod256 (a b : Byte) : Byte := BitVec.ofNat 8 (a.toNat + b.toNat)

/-- `0xFF − b`, the complement of a byte (R10). -/
def complement (b : Byte) : Byte := BitVec.ofNat 8 (0xFF - b.toNat)

/-- `s[i..j]`, the slice with both ends included (R10, R11). -/
def slice (s : List Byte) (i j : Nat) : List Byte := (s.drop i).take (j + 1 - i)

end Sys2Proof.Machine
end

