-- ==== Sys2Proof/Machine/Codec.lean ====
section
/-! DEFINITION. The frame codec as pure functions (spec/30_encoding.md R70 to R77, spec/41_codec_engines.md R100 to R106,
spec/42_frame.md R130, R134 to R140): "FrameCodec — stateless pure functions: escape, unescape, build (Send), parse
(Receive)". No function here reads or writes the state (R138). -/

namespace Sys2Proof.Machine

/-- `ESC = 0x7D` (R72). -/
def escByteValue : Byte := 0x7D

/-- `XM = 0x20` (R72). -/
def xorMask : Byte := 0x20

/-- `DELIM = 0x7E` (R72). -/
def delimiter : Byte := 0x7E

/-- `b ∈ RSV = {0x7E, 0x7D, 0x11, 0x13}` (R72). -/
def isReserved (b : Byte) : Bool := b == 0x7E || b == 0x7D || b == 0x11 || b == 0x13

/-- `escByte(b)` for a byte not at index 0 (R100). -/
def escByte (b : Byte) : List Byte := if isReserved b then [escByteValue, b ^^^ xorMask] else [b]

/-- `escape(s)` (R101). -/
def escape : List Byte → List Byte
  | [] => []
  | b0 :: r => b0 :: r.flatMap escByte

/-- `go` of R103, the bytes after the first. None is the failure DanglingEscape. -/
def unescapeRest : List Byte → Option (List Byte)
  | [] => some []
  | [b] => if b = escByteValue then none else some [b]
  | b :: c :: r =>
    if b = escByteValue then (unescapeRest r).map ((c ^^^ xorMask) :: ·)
    else (unescapeRest (c :: r)).map (b :: ·)

/-- `unescape(s)` (R103). -/
def unescape : List Byte → Option (List Byte)
  | [] => some []
  | b0 :: r => (unescapeRest r).map (b0 :: ·)

/-- The input index of the byte that completes each output byte of `unescapeRest`, when the first input byte has
index `k` (R104). -/
def posRest : Nat → List Byte → List Nat
  | _, [] => []
  | k, [b] => if b = escByteValue then [] else [k]
  | k, b :: c :: r => if b = escByteValue then (k + 1) :: posRest (k + 2) r else k :: posRest (k + 1) (c :: r)

/-- `pos` of R104 as a list: `pos(j)` is its entry j. -/
def posList : List Byte → List Nat
  | [] => []
  | _ :: r => 0 :: posRest 1 r

/-- `cksum(s)`: the sum modulo 256 (R106). -/
def cksum (s : List Byte) : Byte := BitVec.ofNat 8 (s.map BitVec.toNat).sum

/-- F[3..N+7] of a frame: frame type 0x01, frame ID 0x00, destination address big-endian, options 0x01, payload
(R70, R71). -/
def frameBody (addr : Half) (p : List Byte) : List Byte :=
  [0x01, 0x00, hiByte addr, loByte addr, 0x01] ++ p

/-- `build(N, addr, P)` (R130), N being the length of P: delimiter, length, body, checksum. -/
def buildFrame (addr : Half) (p : List Byte) : List Byte :=
  [delimiter, 0x00, BitVec.ofNat 8 (p.length + 5)] ++ frameBody addr p ++ [complement (cksum (frameBody addr p))]

/-- What RECV's parse gives: the unescaped frame and CONSUMED, or the status of the first check that failed (R133). -/
inductive Parsed where
  /-- The window was accepted. -/
  | accepted (u : List Byte) (consumed : Nat)
  /-- The window was rejected. -/
  | rejected (st : Status)
  deriving DecidableEq, Repr

/-- `frontChecks(L, w)` in the order of R134: the first that fails. -/
def frontChecks (rinSize : Nat) (w : List Byte) : Option Status :=
  if rinSize < w.length then some .badOperand
  else
    match w with
    | [] => some .tooShort
    | w0 :: _ =>
      if w0 ≠ delimiter then some .badDelimiter
      else if w.length < Config.minFrameLen then some .tooShort
      else none

/-- `declaredLength(u) = u[1]·256 + u[2]` (R135). -/
def declaredLength (u : List Byte) : Nat := (u.getD 1 0).toNat * 256 + (u.getD 2 0).toNat

/-- `lengthCheck(D, U)` (R137): strict asks D = U − 4, tolerant D ≤ U − 4. -/
def lengthOk (tolerant : Bool) (d u : Nat) : Bool := if tolerant then d ≤ u - 4 else d == u - 4

/-- `checksumCheck(u, D)` (R140): the bytes from the frame type through the checksum byte sum to 0xFF. -/
def checksumOk (u : List Byte) (d : Nat) : Bool := cksum (slice u 3 (d + 3)) == 0xFF

/-- `CONSUMED = pos(D + 3) + 1` (R136). -/
def consumedCount (w : List Byte) (d : Nat) : Nat := (posList w).getD (d + 3) 0 + 1

/-- RECV's checks in the order of R133 and R204. -/
def parseWindow (rinSize : Nat) (tolerant : Bool) (w : List Byte) : Parsed :=
  match frontChecks rinSize w with
  | some st => .rejected st
  | none =>
    match unescape w with
    | none => .rejected .danglingEscape
    | some u =>
      if !lengthOk tolerant (declaredLength u) u.length then .rejected .lengthMismatch
      else if !checksumOk u (declaredLength u) then .rejected .checksumMismatch
      else .accepted u (consumedCount w (declaredLength u))

end Sys2Proof.Machine
end

