-- ==== Sys2Proof/Machine/Ops.lean ====
section
/-! DEFINITION. The named operations over storage and registers: STORE in canonical form, the one access to a slot,
CTRL's fields, a command's end (`finish`, `fail`), reset, and the ring primitives that several commands share
(spec/00_scope.md R12, spec/10_state.md R23 to R34, spec/43_ringbuffer.md R150, spec/70_reset_and_hazards.md R230). -/

namespace Sys2Proof.Machine

/-! ### STORE (R23, R50) -/

/-- What a slot that is not listed reads as: "contents zeroed on construction" (R39), and every vacated slot is zeroed
(R28). -/
def Memory.unlisted : Byte := 0x00

/-- The byte at a physical index. -/
def Memory.read (m : Memory) (a : Nat) : Byte :=
  match m with
  | [] => Memory.unlisted
  | (k, v) :: r => if k = a then v else Memory.read r a

/-- Writes the byte at a physical index, keeping the canonical form. -/
def Memory.write (m : Memory) (a : Nat) (b : Byte) : Memory :=
  match m with
  | [] => if b = Memory.unlisted then [] else [(a, b)]
  | (k, v) :: r =>
    if a < k then (if b = Memory.unlisted then (k, v) :: r else (a, b) :: (k, v) :: r)
    else if a = k then (if b = Memory.unlisted then r else (a, b) :: r)
    else (k, v) :: Memory.write r a b

/-- The canonical form: indices strictly rising, and no entry equal to what an unlisted slot reads as. -/
abbrev Memory.wf (m : Memory) : Prop :=
  m.Pairwise (fun c d => c.1 < d.1) ∧ ∀ c ∈ m, c.2 ≠ Memory.unlisted

/-- `STORE[i]` (R12): the slot exists for 0 ≤ i < CAP only (R50, R62). -/
def readSlot (s : State) (i : Nat) : Option Byte :=
  if i < s.cfg.cap then some (Memory.read s.store i) else none

/-- `STORE[i] <- b` (R12), for 0 ≤ i < CAP only. -/
def writeSlot (i : Nat) (b : Byte) (s : State) : Option State :=
  if i < s.cfg.cap then some { s with store := Memory.write s.store i b } else none

/-- The end of a meaning that accessed STORE: an access to a slot that does not exist faults. -/
def orNoSuchSlot (o : Option State) : Host.Outcome State Fault Refusal :=
  match o with
  | some s => .next s
  | none => .fault .noSuchSlot

/-! ### CTRL (R34) -/

/-- CTRL as read: bits 7:2 read as 0. -/
def readCtrl (s : State) : Byte := s.ctrl &&& 0x03

/-- `CTRL <- a & 0x03`: bits 7:2 of a write are discarded. -/
def writeCtrl (a : Byte) (s : State) : State := { s with ctrl := a &&& 0x03 }

/-- `CTRL.LENPOL = 1`, the tolerant length policy. -/
def lenpolTolerant (s : State) : Bool := s.ctrl.getLsbD 0

/-- `CTRL.CLRCNT = 1`, the capacity count of a full clear. -/
def clrcntCapacity (s : State) : Bool := s.ctrl.getLsbD 1

/-! ### Responses (R86, R200) -/

/-- The numbers of the status codes (R200). -/
def Status.code : Status → Byte
  | .ok => 0x00
  | .illegalCommand => 0x01
  | .badOperand => 0x02
  | .badDelimiter => 0x10
  | .tooShort => 0x11
  | .lengthMismatch => 0x12
  | .checksumMismatch => 0x13
  | .danglingEscape => 0x14
  | .payloadTooLarge => 0x18
  | .bufferFull => 0x20
  | .bufferUnderrun => 0x21
  | .outOfRange => 0x22

/-- R86: `[STATUS, RESULT[15:8], RESULT[7:0]] ++ TAIL`. -/
def response (st : Status) (result : Half) (tail : List Byte) : List Byte :=
  st.code :: (halfBytes result ++ tail)

/-- `finish(status, result)` after `emit(tail)` (R12): the response is appended to RSPQ. -/
def finish (st : Status) (result : Half) (tail : List Byte) (s : State) : State :=
  { s with rspq := s.rspq ++ response st result tail }

/-- `raise Status(info)` (R12): the shared way a command fails. RESULT 0, empty tail, and no control transfer, saved
state or mode change (R210, R211). -/
def fail (st : Status) (s : State) : State := finish st 0 [] s

/-! ### Reset (R230) -/

/-- `resetState()`: every piece of the block's state to its R39 value. The parameters stay, and so does what lies outside
the block: the events still to come, the acknowledges already returned, the bytes the host already read. -/
def resetState (s : State) : State :=
  { State.resetWith s.cfg with inputs := s.inputs, acks := s.acks, hostRx := s.hostRx }

/-! ### Ring primitives (R29, R51, R150) -/

/-- `phys(k) = (HEAD + k) mod CAP`, the physical index of logical position k (R29, R51). -/
def phys (s : State) (k : Nat) : Nat := (s.head.toNat + k) % s.cfg.cap

/-- `(x + 1) mod CAP` for an index register. -/
def nextIndex (s : State) (x : Half) : Half := half ((x.toNat + 1) % s.cfg.cap)

/-- R150, `enqueue(b)`: false and no mutation on a full ring. None where TAIL is no slot. -/
def enqueue (b : Byte) (s : State) : Option (Bool × State) :=
  if s.size.toNat = s.cfg.cap then some (false, s)
  else
    match writeSlot s.tail.toNat b s with
    | none => none
    | some s1 => some (true, { s1 with tail := nextIndex s s.tail, size := half (s.size.toNat + 1) })

/-- R153's loop: enqueues bytes until the first failure, and counts those accepted. -/
def enqueueAll (d : List Byte) (s : State) : Option (Nat × State) :=
  match d with
  | [] => some (0, s)
  | b :: r =>
    match enqueue b s with
    | none => none
    | some (false, s1) => some (0, s1)
    | some (true, s1) =>
      match enqueueAll r s1 with
      | none => none
      | some (n, s2) => some (n + 1, s2)

/-- The bytes at `n` logical positions from `k` on, wrapping around the storage (R155). -/
def readRun (s : State) (k n : Nat) : Option (List Byte) :=
  match n with
  | 0 => some []
  | n + 1 =>
    match readSlot s (phys s k), readRun s (k + 1) n with
    | some b, some r => some (b :: r)
    | _, _ => none

/-- Zeroes the slots of `n` logical positions from `k` on (R156's loop). -/
def zeroRun (k n : Nat) (s : State) : Option State :=
  match n with
  | 0 => some s
  | n + 1 =>
    match writeSlot (phys s k) 0x00 s with
    | none => none
    | some s1 => zeroRun (k + 1) n s1

/-- R29: the ring's contents, oldest first. -/
def contents (s : State) : List Byte :=
  (List.range s.size.toNat).map fun k => Memory.read s.store (phys s k)

end Sys2Proof.Machine
end

