-- ==== Sys2Proof/Machine/Engines.lean ====
section
/-! DEFINITION. The byte-serial escape, unescape and checksum engines (spec/41_codec_engines.md R110 to R121). -/

namespace Sys2Proof.Machine

/-- `emit(out); finish(OK, |out|)`, the end of ESC.PUT and UNE.PUT (R111, R114). -/
def finishEmit (out : List Byte) (s : State) : State := finish .ok (half out.length) out s

/-- `ESC.INIT` (R110). -/
def execEscInit (s : State) : Host.Outcome State Fault Refusal := .next (finish .ok 0 [] { s with escSt := .first })

/-- `ESC.PUT b` (R111). -/
def execEscPut (b : Byte) (s : State) : Host.Outcome State Fault Refusal :=
  match s.escSt with
  | .first => .next (finishEmit [b] { s with escSt := .rest })
  | .rest => .next (finishEmit (escByte b) s)

/-- `UNE.INIT` (R113): a pending escape is dropped without report. -/
def execUneInit (s : State) : Host.Outcome State Fault Refusal := .next (finish .ok 0 [] { s with uneSt := .first })

/-- `UNE.PUT b` (R114). -/
def execUnePut (b : Byte) (s : State) : Host.Outcome State Fault Refusal :=
  match s.uneSt with
  | .first => .next (finishEmit [b] { s with uneSt := .normal })
  | .normal =>
    if b = escByteValue then .next (finishEmit [] { s with uneSt := .escaped }) else .next (finishEmit [b] s)
  | .escaped => .next (finishEmit [b ^^^ xorMask] { s with uneSt := .normal })

/-- `UNE.END` (R115): UNE_ST goes to FIRST, also when it answers DanglingEscape. -/
def execUneEnd (s : State) : Host.Outcome State Fault Refusal :=
  match s.uneSt with
  | .first => .next (finish .ok 0 [] { s with uneSt := .first })
  | .normal => .next (finish .ok 0 [] { s with uneSt := .first })
  | .escaped => .next (fail .danglingEscape { s with uneSt := .first })

/-- `CK.INIT` (R117). -/
def execCkInit (s : State) : Host.Outcome State Fault Refusal := .next (finish .ok 0 [] { s with ckAcc := 0 })

/-- `CK.ADD b` (R118). -/
def execCkAdd (b : Byte) (s : State) : Host.Outcome State Fault Refusal :=
  .next (finish .ok (zext16 (addMod256 s.ckAcc b)) [] { s with ckAcc := addMod256 s.ckAcc b })

/-- `CK.GET` (R119). -/
def execCkGet (s : State) : Host.Outcome State Fault Refusal := .next (finish .ok (zext16 (complement s.ckAcc)) [] s)

/-- `CK.RAW` (R120). -/
def execCkRaw (s : State) : Host.Outcome State Fault Refusal := .next (finish .ok (zext16 s.ckAcc) [] s)

/-- `CK.TEST` (R121). -/
def execCkTest (s : State) : Host.Outcome State Fault Refusal :=
  if s.ckAcc ≠ 0xFF then .next (fail .checksumMismatch s) else .next (finish .ok 0 [] s)

end Sys2Proof.Machine
end

