-- ==== Sys2Proof/Machine/Frame.lean ====
section
/-! DEFINITION. Frame build and parse (spec/42_frame.md R130 to R140): SEND and RECV. Neither touches the ring or an engine
register; SEND reads no register, RECV reads CTRL.LENPOL (R138). -/

namespace Sys2Proof.Machine

/-- `SEND [P], addr` (R131): the wire frame is the response's tail. -/
def execSend (addr : Half) (p : List Byte) (s : State) : Host.Outcome State Fault Refusal :=
  if s.cfg.maxPayload < p.length then .next (fail .payloadTooLarge s)
  else .next (finish .ok (half (escape (buildFrame addr p)).length) (escape (buildFrame addr p)) s)

/-- `RECV [w]` (R133): on success RESULT = U and the tail is CONSUMED, then the unescaped frame. -/
def execRecv (w : List Byte) (s : State) : Host.Outcome State Fault Refusal :=
  match parseWindow s.cfg.rinSize (lenpolTolerant s) w with
  | .accepted u consumed => .next (finish .ok (half u.length) (halfBytes (half consumed) ++ u) s)
  | .rejected st => .next (fail st s)

end Sys2Proof.Machine
end

