-- ==== Sys2Proof/Machine/Flags.lean ====
section
/-! DEFINITION. The block's predicates and its STATUS view (spec/10_state.md R30, R35): computed when read, never
stored. No other flag or condition code exists (R40). -/

namespace Sys2Proof.Machine

/-- `EMPTY = (SIZE == 0)` (R30). -/
def ringEmpty (s : State) : Bool := s.size.toNat == 0

/-- `FULL = (SIZE == CAP)` (R30). -/
def ringFull (s : State) : Bool := s.size.toNat == s.cfg.cap

/-- A flag as a 16-bit number. -/
def flagBit (b : Bool) : Half := if b then 1 else 0

/-- The code of UNE_ST (R32). -/
def UneState.code : UneState → Half
  | .first => 0
  | .normal => 1
  | .escaped => 2

/-- `STATUS` (R35, R185): RB_EMPTY in bit 0, RB_FULL in bit 1, ESC_FIRST in bit 2, UNE_ST in bits 4:3, bits 15:5 zero. -/
def statusView (s : State) : Half :=
  flagBit (ringEmpty s) ||| (flagBit (ringFull s) <<< 1) ||| (flagBit (s.escSt == .first) <<< 2) |||
    (UneState.code s.uneSt <<< 3)

end Sys2Proof.Machine
end

