-- ==== Sys2Proof/Machine/Ring.lean ====
section
/-! DEFINITION. The ring-buffer commands and the push (spec/43_ringbuffer.md R150 to R162). -/

namespace Sys2Proof.Machine

/-- `RB.ENQ b` (R151). -/
def execRbEnq (b : Byte) (s : State) : Host.Outcome State Fault Refusal :=
  match enqueue b s with
  | none => .fault .noSuchSlot
  | some (false, s1) => .next (fail .bufferFull s1)
  | some (true, s1) => .next (finish .ok 1 [] s1)

/-- `RB.DEQ` (R152): the vacated slot is zeroed. -/
def execRbDeq (s : State) : Host.Outcome State Fault Refusal :=
  if ringEmpty s then .next (fail .bufferUnderrun s)
  else
    match readSlot s s.head.toNat, writeSlot s.head.toNat 0x00 s with
    | some b, some s1 =>
      .next (finish .ok (zext16 b) [] { s1 with head := nextIndex s s.head, size := half (s.size.toNat - 1) })
    | _, _ => .fault .noSuchSlot

/-- `RB.ENQSEQ [d]` (R153): stops at the first failure, RESULT is the count accepted. -/
def execRbEnqseq (d : List Byte) (s : State) : Host.Outcome State Fault Refusal :=
  match enqueueAll d s with
  | none => .fault .noSuchSlot
  | some (count, s1) =>
    if count < d.length then .next (finish .bufferFull (half count) [] s1)
    else .next (finish .ok (half count) [] s1)

/-- `RB.PEEK off` (R154). -/
def execRbPeek (off : Half) (s : State) : Host.Outcome State Fault Refusal :=
  if ringEmpty s then .next (fail .bufferUnderrun s)
  else if s.size.toNat ≤ off.toNat then .next (fail .outOfRange s)
  else orNoSuchSlot ((readSlot s (phys s off.toNat)).map fun b => finish .ok (zext16 b) [] s)

/-- `RB.COPY start` (R155): SIZE bytes from logical position start on, reading on around the storage. -/
def execRbCopy (start : Half) (s : State) : Host.Outcome State Fault Refusal :=
  if ringEmpty s then .next (fail .bufferUnderrun s)
  else if s.size.toNat ≤ start.toNat then .next (fail .outOfRange s)
  else orNoSuchSlot ((readRun s start.toNat s.size.toNat).map fun tail => finish .ok s.size tail s)

/-- How many bytes `RB.CLEAR upto` removes (R156). -/
def clearCount (upto : Half) (s : State) : Nat := if s.size.toNat ≤ upto.toNat then s.size.toNat else upto.toNat

/-- `RB.CLEAR upto` (R156): TAIL is unchanged. With CLRCNT = 1 a full clear reports CAP. -/
def execRbClear (upto : Half) (s : State) : Host.Outcome State Fault Refusal :=
  orNoSuchSlot ((zeroRun 0 (clearCount upto s) s).map fun s1 =>
    finish .ok
      (if s.size.toNat ≤ upto.toNat ∧ clrcntCapacity s = true then half s.cfg.cap else half (clearCount upto s)) []
      { s1 with head := half (phys s (clearCount upto s)), size := half (s.size.toNat - clearCount upto s) })

/-- `RB.SIZE` (R157). -/
def execRbSize (s : State) : Host.Outcome State Fault Refusal := .next (finish .ok s.size [] s)

/-- `RB.HEAD` (R158). -/
def execRbHead (s : State) : Host.Outcome State Fault Refusal := .next (finish .ok s.head [] s)

/-- `RB.TAIL` (R159). -/
def execRbTail (s : State) : Host.Outcome State Fault Refusal := .next (finish .ok s.tail [] s)

/-- `RB.EMPTY` (R160). -/
def execRbEmpty (s : State) : Host.Outcome State Fault Refusal := .next (finish .ok (flagBit (ringEmpty s)) [] s)

/-- `RB.FULL` (R161). -/
def execRbFull (s : State) : Host.Outcome State Fault Refusal := .next (finish .ok (flagBit (ringFull s)) [] s)

/-- `PUSH b` (R58, R162): the enqueue of R150, its success returned as the acknowledge bit, no response. -/
def pushByte (b : Byte) (s : State) : Host.Outcome State Fault Refusal :=
  match enqueue b s with
  | none => .fault .noSuchSlot
  | some (ack, s1) => .next { s1 with acks := s1.acks ++ [ack] }

end Sys2Proof.Machine
end

