-- ==== Sys2Proof/Machine/System.lean ====
section
/-! DEFINITION. The system commands (spec/44_system.md R180 to R185). -/

namespace Sys2Proof.Machine

/-- `NOP` (R180). -/
def execNop (s : State) : Host.Outcome State Fault Refusal := .next (finish .ok 0 [] s)

/-- `RESET` (R181, R182): every unread response is discarded before its own is appended. -/
def execReset (s : State) : Host.Outcome State Fault Refusal := .next (finish .ok 0 [] (resetState s))

/-- `RDCTRL` (R183). -/
def execRdctrl (s : State) : Host.Outcome State Fault Refusal := .next (finish .ok (zext16 (readCtrl s)) [] s)

/-- `WRCTRL a` (R184). -/
def execWrctrl (a : Byte) (s : State) : Host.Outcome State Fault Refusal :=
  .next (finish .ok (zext16 (readCtrl (writeCtrl a s))) [] (writeCtrl a s))

/-- `RDSTAT` (R185). -/
def execRdstat (s : State) : Host.Outcome State Fault Refusal := .next (finish .ok (statusView s) [] s)

end Sys2Proof.Machine
end

