-- ==== Sys2Proof/Machine/Dispatch.lean ====
section
/-! DEFINITION. One arm per command: its meaning. -/

namespace Sys2Proof.Machine

def exec (i : Instr) (s : State) : Host.Outcome State Fault Refusal :=
  match i with
  | .nop => Sys2Proof.Machine.execNop s
  | .reset => Sys2Proof.Machine.execReset s
  | .rdctrl => Sys2Proof.Machine.execRdctrl s
  | .wrctrl a => Sys2Proof.Machine.execWrctrl a s
  | .rdstat => Sys2Proof.Machine.execRdstat s
  | .escInit => Sys2Proof.Machine.execEscInit s
  | .escPut b => Sys2Proof.Machine.execEscPut b s
  | .uneInit => Sys2Proof.Machine.execUneInit s
  | .unePut b => Sys2Proof.Machine.execUnePut b s
  | .uneEnd => Sys2Proof.Machine.execUneEnd s
  | .ckInit => Sys2Proof.Machine.execCkInit s
  | .ckAdd b => Sys2Proof.Machine.execCkAdd b s
  | .ckGet => Sys2Proof.Machine.execCkGet s
  | .ckRaw => Sys2Proof.Machine.execCkRaw s
  | .ckTest => Sys2Proof.Machine.execCkTest s
  | .send addr p => Sys2Proof.Machine.execSend addr p s
  | .recv w => Sys2Proof.Machine.execRecv w s
  | .rbEnq b => Sys2Proof.Machine.execRbEnq b s
  | .rbDeq => Sys2Proof.Machine.execRbDeq s
  | .rbEnqseq d => Sys2Proof.Machine.execRbEnqseq d s
  | .rbPeek off => Sys2Proof.Machine.execRbPeek off s
  | .rbCopy start => Sys2Proof.Machine.execRbCopy start s
  | .rbClear upto => Sys2Proof.Machine.execRbClear upto s
  | .rbSize => Sys2Proof.Machine.execRbSize s
  | .rbHead => Sys2Proof.Machine.execRbHead s
  | .rbTail => Sys2Proof.Machine.execRbTail s
  | .rbEmpty => Sys2Proof.Machine.execRbEmpty s
  | .rbFull => Sys2Proof.Machine.execRbFull s

end Sys2Proof.Machine
end

