-- ==== Sys2Proof/Machine/Ports.lean ====
section
/-! DEFINITION. What one port event does (spec/30_encoding.md R80, R84, R85, spec/20_memory.md R56 to R59,
spec/70_reset_and_hazards.md R231, R233, R243). A command executes in the step in which its last byte arrives, as one
atomic step; until then its bytes wait in CPB and no later command can run. Pushes, reads and the reset input are atomic
steps of their own, at any point between bytes. -/

namespace Sys2Proof.Machine

/-- An illegal opcode (R85): status IllegalCommand, RESULT 0, no other state changed. -/
def answerIllegal (s : State) : Host.Outcome State Fault Refusal := .next (fail .illegalCommand s)

/-- The command parser with the bytes it holds: run the command at their front, answer an illegal opcode, or hold
(R84, R85, R243). -/
def runParsed (s : State) : Host.Outcome State Fault Refusal :=
  match decode s.cpb with
  | .cmd i rest => exec i { s with cpb := rest }
  | .illegal _ rest => answerIllegal { s with cpb := rest }
  | .incomplete => .next s

/-- A byte arrives on the command port (R84). -/
def receiveByte (b : Byte) (s : State) : Host.Outcome State Fault Refusal := runParsed { s with cpb := s.cpb ++ [b] }

/-- The host reads the oldest response byte (R37); with none pending nothing is read. -/
def readResponse (s : State) : Host.Outcome State Fault Refusal :=
  match s.rspq with
  | [] => .next s
  | b :: r => .next { s with rspq := r, hostRx := s.hostRx ++ [b] }

/-- The reset input (R231, R233): resetState() and no response. -/
def assertReset (s : State) : Host.Outcome State Fault Refusal := .next (resetState s)

/-- One port event, already taken from `inputs`. -/
def deliver (e : PortEvent) (s : State) : Host.Outcome State Fault Refusal :=
  match e with
  | .cmdByte b => receiveByte b s
  | .push b => pushByte b s
  | .hostRead => readResponse s
  | .resetInput => assertReset s

/-- The next event in the total order of R59. With none waiting the block is idle and its state survives unchanged
(spec/60_exceptions.md R220). -/
def nextEvent (s : State) : Host.Outcome State Fault Refusal :=
  match s.inputs with
  | [] => .next s
  | e :: es => deliver e { s with inputs := es }

/-- The state in which the bytes of a command stand at the command port with only the last still to arrive. -/
def placeCommand (bytes : List Byte) (s : State) : State :=
  { s with cpb := bytes.dropLast, inputs := .cmdByte (bytes.getLastD 0) :: s.inputs }

end Sys2Proof.Machine
end

