-- ==== Sys2Proof/Machine/Step.lean ====
section
/-! DEFINITION. One step of the machine, and where a command is placed for the next step to run it. -/

namespace Sys2Proof.Machine

/-- One atomic step (spec/20_memory.md R59, spec/70_reset_and_hazards.md R250). Parameters outside R8's ranges are no
configuration of the block and are refused (spec/93_implementation_defined.md S9). -/
def step (s : State) : Host.Outcome State Fault Refusal :=
  if s.cfg.Legal then nextEvent s else .refused .notAConfiguration

/-- `s` with the table word `w` at the command port, so that the very next step runs it (notes/assumptions/3.md). -/
def State.withFetchWord (s : State) (nbits w : Nat) : State := placeCommand (tableBytes nbits w) s

end Sys2Proof.Machine
end

