-- ==== Sys2Proof/Safety.lean ====
section
/-! DEFINITION. What counts as a safe run, in the terms the statements use: the invariant of the reachable states
(spec/10_state.md R27, R28, R34, R36), a step that answers a next state, and the atomic steps of the consistency model
(spec/20_memory.md R59): one command or one push. -/

namespace Sys2Proof.Machine

/-! ### The invariant -/

/-- R24 to R27: HEAD is a slot, SIZE is at most CAP, and `TAIL == (HEAD + SIZE) mod CAP`; CAP is in its range. -/
abbrev PointersOk (s : State) : Prop :=
  1 ≤ s.cfg.cap ∧ s.cfg.cap ≤ 65535 ∧ s.head.toNat < s.cfg.cap ∧ s.size.toNat ≤ s.cfg.cap ∧
    s.tail.toNat = (s.head.toNat + s.size.toNat) % s.cfg.cap

/-- STORE is in canonical form and lists only slots that exist (R23, R50). -/
abbrev StoreOk (s : State) : Prop := Memory.wf s.store ∧ ∀ c ∈ s.store, c.1 < s.cfg.cap

/-- R28: every slot not holding a buffered byte holds 0. -/
abbrev FreeSlotsZero (s : State) : Prop :=
  ∀ k, k < s.cfg.cap → s.size.toNat ≤ k → Memory.read s.store (phys s k) = 0x00

/-- R34: CTRL only ever holds 0..3. -/
abbrev CtrlOk (s : State) : Prop := s.ctrl.toNat ≤ 3

/-- R36: CPB holds a command that is not yet complete, or nothing. -/
abbrev CpbOk (s : State) : Prop := decode s.cpb = .incomplete

/-- The invariant of the reachable states. -/
abbrev Inv (s : State) : Prop :=
  s.cfg.Legal ∧ PointersOk s ∧ StoreOk s ∧ FreeSlotsZero s ∧ CtrlOk s ∧ CpbOk s

/-! ### Safe steps -/

/-- The step neither faults nor is refused. -/
def SafeStep (s : State) : Prop := ∃ t, step s = .next t

/-! ### Atomic steps (R59) -/

/-- "each step being one complete command (rule R56) or one push (rule R58)". -/
inductive AtomicStep where
  /-- A complete command. -/
  | command (i : Instr)
  /-- A push. -/
  | push (b : Byte)
  deriving DecidableEq, Repr

/-- The effect of one atomic step. -/
def atomic (a : AtomicStep) (s : State) : Host.Outcome State Fault Refusal :=
  match a with
  | .command i => exec i s
  | .push b => pushByte b s

/-- A sequence of atomic steps, in order. -/
def atomicRun (as : List AtomicStep) (s : State) : Host.Outcome State Fault Refusal :=
  match as with
  | [] => .next s
  | a :: r =>
    match atomic a s with
    | .next t => atomicRun r t
    | .fault f => .fault f
    | .refused f => .refused f

/-- A sequence of commands. -/
def commandRun (is : List Instr) (s : State) : Host.Outcome State Fault Refusal :=
  atomicRun (is.map AtomicStep.command) s

/-- `k` steps of the machine, stopping at the first fault or refusal. -/
def stepRun (k : Nat) (s : State) : Host.Outcome State Fault Refusal :=
  match k with
  | 0 => .next s
  | k + 1 =>
    match step s with
    | .next t => stepRun k t
    | .fault f => .fault f
    | .refused f => .refused f

/-- What an atomic step is at the ports: the bytes of its command, or its push (R80). -/
def portEvents (a : AtomicStep) : List PortEvent :=
  match a with
  | .command i => (encode i).map PortEvent.cmdByte
  | .push b => [.push b]

/-! ### What the outside sees of the ring (R163) -/

/-- The bytes a step put into the ring, as its response or its acknowledge bit reports them. `out` is what the step
appended to RSPQ, `acks` what it appended to the acknowledges. -/
def reportedAccepted (a : AtomicStep) (out : List Byte) (acks : List Bool) : List Byte :=
  match a with
  | .command (.rbEnq b) => if out.getD 0 0 = Status.ok.code then [b] else []
  | .command (.rbEnqseq d) => d.take (be16 (out.getD 1 0) (out.getD 2 0)).toNat
  | .push b => if acks.getD 0 false then [b] else []
  | _ => []

/-- The bytes a step took out of the ring with status OK, as its response reports them. -/
def reportedReturned (a : AtomicStep) (out : List Byte) : List Byte :=
  match a with
  | .command .rbDeq => if out.getD 0 0 = Status.ok.code then [out.getD 2 0] else []
  | _ => []

/-- A run of atomic steps with the bytes reported accepted and the bytes reported returned, in order; none where a step
stops. -/
def fifoRun (as : List AtomicStep) (s : State) : Option (List Byte × List Byte × State) :=
  match as with
  | [] => some ([], [], s)
  | a :: r =>
    match atomic a s with
    | .next t =>
      match fifoRun r t with
      | some (acc, ret, u) =>
        some (reportedAccepted a (t.rspq.drop s.rspq.length) (t.acks.drop s.acks.length) ++ acc,
          reportedReturned a (t.rspq.drop s.rspq.length) ++ ret, u)
      | none => none
    | .fault _ => none
    | .refused _ => none

end Sys2Proof.Machine
end

