-- ==== Sys2Proof/Certificates/Slice0/Obligations.lean ====
section
/-! DEFINITION. The statements for the provers. A response is written out byte by byte where the rule fixes its bytes, and
a next state as the whole state with the fields the rule names changed, so that each result statement is also the
command's frame and says that the command completes. -/

open Sys2Proof Sys2Proof.Machine

/-! ### Encoding -/

/-- spec/30_encoding.md R81 to R84, R90: every command is read back from its bytes, whatever follows them. -/
def Obligations.DecodeReadsBackEveryCommand : Prop :=
  ∀ (i : Instr) (rest : List Byte), i.wellFormed = true → decode (encode i ++ rest) = .cmd i rest

/-- spec/30_encoding.md R81 to R84: a byte stream the decoder reads as a command begins with exactly that command's
bytes, and the command is well formed: every encoding has one meaning and every meaning one encoding. -/
def Obligations.DecodedBytesAreTheEncoding : Prop :=
  ∀ (bs rest : List Byte) (i : Instr), decode bs = .cmd i rest → i.wellFormed = true ∧ bs = encode i ++ rest

/-- spec/30_encoding.md R84, R90: the decoder is total and waits exactly while the command is shorter than its length
says: the header of its format plus its tail, one byte for an illegal opcode. -/
def Obligations.DecoderWaitsForTheWholeCommand : Prop :=
  ∀ bs : List Byte,
    (decode bs = .incomplete ↔ bs.length < commandLength bs) ∧
    (∀ i rest, decode bs = .cmd i rest → (encode i).length = commandLength bs ∧ rest = bs.drop (commandLength bs)) ∧
    (∀ opc rest, decode bs = .illegal opc rest → commandLength bs = 1 ∧ bs = opc :: rest)

/-- spec/30_encoding.md R85: the illegal opcodes are exactly the bytes of its list, 228 of them; one is a 1-byte
command, it answers IllegalCommand with RESULT 0, changes no other state, and the byte after it is the next opcode.
(That it answers on the step on which the byte arrives is the model's choice, notes/assumptions/2.md.) -/
def Obligations.IllegalOpcodesAnswerIllegalCommand : Prop :=
  (∀ (opc : Byte) (r : List Byte),
    decode (opc :: r) = .illegal opc r ↔
      (0x05 ≤ opc ∧ opc ≤ 0x0F) ∨ (0x12 ≤ opc ∧ opc ≤ 0x17) ∨ (0x1B ≤ opc ∧ opc ≤ 0x1F) ∨
        (0x25 ≤ opc ∧ opc ≤ 0x2F) ∨ (0x32 ≤ opc ∧ opc ≤ 0x3F) ∨ 0x4B ≤ opc) ∧
  ((List.range 256).filter fun n => decide (decode [BitVec.ofNat 8 n] = .illegal (BitVec.ofNat 8 n) [])).length = 228 ∧
  ∀ (s : State) (opc : Byte) (es : List PortEvent), s.cfg.Legal → s.cpb = [] → s.inputs = .cmdByte opc :: es →
    decode [opc] = .illegal opc [] →
    step s = .next { s with inputs := es, rspq := s.rspq ++ [0x01, 0x00, 0x00] }

/-- spec/95_test_vectors.md: the encodings of its vectors, one or more of every family, are read as the commands they
stand for. -/
def Obligations.SpecWordsDecode : Prop :=
  decode [0x03, 0xFF] = .cmd (.wrctrl 0xFF) [] ∧
  decode [0x11, 0x7E] = .cmd (.escPut 0x7E) [] ∧
  decode [0x1A] = .cmd .uneEnd [] ∧
  decode [0x21, 0x03] = .cmd (.ckAdd 0x03) [] ∧
  decode [0x30, 0x02, 0x12, 0x34, 0x41, 0x42] = .cmd (.send 0x1234 [0x41, 0x42]) [] ∧
  decode [0x31, 0x00, 0x02, 0x7E, 0x00, 0x04] = .cmd (.recv [0x7E, 0x00]) [0x04] ∧
  decode [0x42, 0x00, 0x03, 0x01, 0x02, 0x03] = .cmd (.rbEnqseq [0x01, 0x02, 0x03]) [] ∧
  decode [0x43, 0x00, 0xD9] = .cmd (.rbPeek 217) [] ∧
  decode [0x45, 0xFF, 0xFF] = .cmd (.rbClear 0xFFFF) [] ∧
  decode [0x30, 0x02, 0x12, 0x34, 0x41] = .incomplete ∧
  decode [0xFF, 0x00] = .illegal 0xFF [0x00]

/-! ### Steps and ports -/

/-- spec/30_encoding.md R84, spec/20_memory.md R56: when the arriving byte completes a command, the step is that
command's meaning, with the byte taken from the port and the command's bytes taken from CPB. (That a command runs on the
step of its last byte is the model's choice, notes/assumptions/2.md.) -/
def Obligations.StepRunsTheDecodedCommand : Prop :=
  ∀ (s : State) (b : Byte) (es : List PortEvent) (i : Instr) (rest : List Byte), s.cfg.Legal →
    s.inputs = .cmdByte b :: es → decode (s.cpb ++ [b]) = .cmd i rest →
    step s = exec i { s with inputs := es, cpb := rest }

/-- spec/10_state.md R36, spec/70_reset_and_hazards.md R243: while the command is not complete its bytes wait in CPB,
nothing runs and nothing is answered. (One byte a step is the model's choice, notes/assumptions/2.md.) -/
def Obligations.IncompleteCommandWaitsInCpb : Prop :=
  ∀ (s : State) (b : Byte) (es : List PortEvent), s.cfg.Legal → s.inputs = .cmdByte b :: es →
    decode (s.cpb ++ [b]) = .incomplete → step s = .next { s with inputs := es, cpb := s.cpb ++ [b] }

/-- spec/43_ringbuffer.md R150, R162: a push is the enqueue, with an acknowledge bit and no response. (The list of
acknowledges is the model's own record, notes/assumptions/4.md.) -/
def Obligations.PushStepEnqueuesAndAcknowledges : Prop :=
  ∀ (s : State) (b : Byte) (es : List PortEvent), s.cfg.Legal → PointersOk s → Memory.wf s.store →
    s.inputs = .push b :: es →
    (s.size.toNat = s.cfg.cap → step s = .next { s with inputs := es, acks := s.acks ++ [false] }) ∧
    (s.size.toNat < s.cfg.cap → ∃ m : Memory,
      step s = .next { s with
        inputs := es, store := m, tail := BitVec.ofNat 16 ((s.tail.toNat + 1) % s.cfg.cap), size := s.size + 1,
        acks := s.acks ++ [true] } ∧
      ∀ a, Memory.read m a = if a = s.tail.toNat then b else Memory.read s.store a)

/-- spec/10_state.md R37, spec/60_exceptions.md R220: the host reads response bytes from the front of RSPQ; with no
event waiting the block is idle and every state survives unchanged. (That a read of an empty RSPQ changes nothing is the
model's choice, notes/assumptions/5.md.) -/
def Obligations.HostReadsFromTheFrontAndIdlingKeepsTheState : Prop :=
  ∀ s : State, s.cfg.Legal →
    (s.inputs = [] → step s = .next s) ∧
    ∀ es : List PortEvent, s.inputs = .hostRead :: es →
      (s.rspq = [] → step s = .next { s with inputs := es }) ∧
      ∀ (b : Byte) (r : List Byte), s.rspq = b :: r →
        step s = .next { s with inputs := es, rspq := r, hostRx := s.hostRx ++ [b] }

/-- spec/70_reset_and_hazards.md R230, spec/10_state.md R39: the reset input sets every piece of the block's state to
its reset value in one step, with no response, and then the pointer and free-slot invariants hold. (That inputs, acks
and hostRx stay as they are is the model's choice, notes/assumptions/4.md.) -/
def Obligations.ResetInputSetsEveryRegister : Prop :=
  ∀ (s : State) (es : List PortEvent), s.cfg.Legal → s.inputs = .resetInput :: es →
    ∃ t : State, step s = .next t ∧
      t = { cfg := s.cfg, store := [], head := 0, tail := 0, size := 0, escSt := .first, uneSt := .first, ckAcc := 0x00,
            ctrl := 0x00, cpb := [], rspq := [], inputs := es, acks := s.acks, hostRx := s.hostRx } ∧
      (∀ a, Memory.read t.store a = 0x00) ∧ PointersOk t ∧ FreeSlotsZero t

/-- spec/20_memory.md R59, R56: a schedule of the command and push ports in which each command's bytes arrive together,
with pushes anywhere between commands, is the run of its atomic steps in that order, whatever the order is. (The list of
port events is the model's form of that order, notes/assumptions/4.md.) -/
def Obligations.PortScheduleIsTheAtomicRun : Prop :=
  ∀ (as : List AtomicStep) (s : State) (es : List PortEvent), s.cfg.Legal → s.cpb = [] →
    (∀ i, AtomicStep.command i ∈ as → i.wellFormed = true) →
    s.inputs = as.flatMap portEvents ++ es →
    stepRun (as.flatMap portEvents).length s = atomicRun as { s with inputs := es }

/-- spec/70_reset_and_hazards.md R243, spec/20_memory.md R58: the push port keeps working while a command is incomplete:
a push between two bytes of a command takes effect before the command and disturbs none of its bytes. (The list of port
events is the model's form of the order, notes/assumptions/4.md.) -/
def Obligations.PushBetweenCommandBytesComesFirst : Prop :=
  ∀ (s : State) (i : Instr) (p q : List Byte) (b : Byte) (es : List PortEvent), s.cfg.Legal →
    s.cpb = [] → i.wellFormed = true → encode i = p ++ q → p ≠ [] → q ≠ [] →
    s.inputs = p.map PortEvent.cmdByte ++ [.push b] ++ q.map PortEvent.cmdByte ++ es →
    stepRun (p.length + 1 + q.length) s = atomicRun [.push b, .command i] { s with inputs := es }

/-- The model's own: the host's placed table word runs as the very next step (notes/assumptions/3.md). -/
def Obligations.PlacedTableWordRunsNext : Prop :=
  ∀ (s : State) (nbits w : Nat) (i : Instr), s.cfg.Legal → decodeTableWord nbits w = some i →
    step (s.withFetchWord nbits w) = exec i { s with cpb := [] }

/-! ### System commands -/

/-- spec/44_system.md R180. -/
def Obligations.NopAnswersOkAndWritesNothing : Prop :=
  (∀ r, decode (0x00 :: r) = .cmd .nop r) ∧
  ∀ s : State, exec .nop s = .next { s with rspq := s.rspq ++ [0x00, 0x00, 0x00] }

/-- spec/44_system.md R181, R182: RESET sets everything to the values of R39, discards every unread response, and leaves
its own response alone in RSPQ. (That inputs, acks and hostRx stay as they are is the model's choice,
notes/assumptions/4.md.) -/
def Obligations.ResetCommandLeavesOnlyItsOwnResponse : Prop :=
  (∀ r, decode (0x01 :: r) = .cmd .reset r) ∧
  ∀ s : State, exec .reset s = .next
    { cfg := s.cfg, store := [], head := 0, tail := 0, size := 0, escSt := .first, uneSt := .first, ckAcc := 0x00,
      ctrl := 0x00, cpb := [], rspq := [0x00, 0x00, 0x00], inputs := s.inputs, acks := s.acks, hostRx := s.hostRx }

/-- spec/44_system.md R183, R184: WRCTRL keeps bits 1:0 of its operand, RDCTRL reads CTRL with bits 7:2 as 0. -/
def Obligations.ControlRegisterKeepsTwoBits : Prop :=
  (∀ r, decode (0x02 :: r) = .cmd .rdctrl r) ∧ (∀ a r, decode (0x03 :: a :: r) = .cmd (.wrctrl a) r) ∧
  ∀ (s : State) (a : Byte),
    exec (.wrctrl a) s = .next { s with ctrl := a &&& 0x03, rspq := s.rspq ++ [0x00, 0x00, a &&& 0x03] } ∧
    exec .rdctrl s = .next { s with rspq := s.rspq ++ [0x00, 0x00, s.ctrl &&& 0x03] } ∧
    (CtrlOk s → s.ctrl &&& 0x03 = s.ctrl)

/-- spec/44_system.md R185, spec/10_state.md R35: the STATUS view, bit by bit. -/
def Obligations.RdstatReportsTheStatusView : Prop :=
  (∀ r, decode (0x04 :: r) = .cmd .rdstat r) ∧
  ∀ s : State, ∃ st : Half,
    exec .rdstat s = .next { s with rspq := s.rspq ++ [0x00, hiByte st, loByte st] } ∧
    (st.getLsbD 0 = true ↔ s.size.toNat = 0) ∧
    (st.getLsbD 1 = true ↔ s.size.toNat = s.cfg.cap) ∧
    (st.getLsbD 2 = true ↔ s.escSt = .first) ∧
    (s.uneSt = .first → st.extractLsb' 3 2 = 0) ∧ (s.uneSt = .normal → st.extractLsb' 3 2 = 1) ∧
    (s.uneSt = .escaped → st.extractLsb' 3 2 = 2) ∧
    st.extractLsb' 5 11 = 0

/-! ### Engines -/

/-- spec/41_codec_engines.md R110, R111: ESC.INIT, ESC.PUT in each state, and that only ESC.INIT and a reset leave REST. -/
def Obligations.EscapeEngineStep : Prop :=
  (∀ r, decode (0x10 :: r) = .cmd .escInit r) ∧ (∀ b r, decode (0x11 :: b :: r) = .cmd (.escPut b) r) ∧
  ∀ (s : State) (b : Byte),
    exec .escInit s = .next { s with escSt := .first, rspq := s.rspq ++ [0x00, 0x00, 0x00] } ∧
    (s.escSt = .first →
      exec (.escPut b) s = .next { s with escSt := .rest, rspq := s.rspq ++ [0x00, 0x00, 0x01, b] }) ∧
    (s.escSt = .rest → b = 0x7E ∨ b = 0x7D ∨ b = 0x11 ∨ b = 0x13 →
      exec (.escPut b) s = .next { s with rspq := s.rspq ++ [0x00, 0x00, 0x02, 0x7D, b ^^^ 0x20] }) ∧
    (s.escSt = .rest → ¬(b = 0x7E ∨ b = 0x7D ∨ b = 0x11 ∨ b = 0x13) →
      exec (.escPut b) s = .next { s with rspq := s.rspq ++ [0x00, 0x00, 0x01, b] }) ∧
    (s.escSt = .rest → ∀ (i : Instr) (t : State), exec i s = .next t → i ≠ .escInit → i ≠ .reset → t.escSt = .rest)

/-- spec/41_codec_engines.md R113, R114, R115. -/
def Obligations.UnescapeEngineStep : Prop :=
  (∀ r, decode (0x18 :: r) = .cmd .uneInit r) ∧ (∀ b r, decode (0x19 :: b :: r) = .cmd (.unePut b) r) ∧
  (∀ r, decode (0x1A :: r) = .cmd .uneEnd r) ∧
  ∀ (s : State) (b : Byte),
    exec .uneInit s = .next { s with uneSt := .first, rspq := s.rspq ++ [0x00, 0x00, 0x00] } ∧
    (s.uneSt = .first →
      exec (.unePut b) s = .next { s with uneSt := .normal, rspq := s.rspq ++ [0x00, 0x00, 0x01, b] }) ∧
    (s.uneSt = .normal → b = 0x7D →
      exec (.unePut b) s = .next { s with uneSt := .escaped, rspq := s.rspq ++ [0x00, 0x00, 0x00] }) ∧
    (s.uneSt = .normal → b ≠ 0x7D →
      exec (.unePut b) s = .next { s with rspq := s.rspq ++ [0x00, 0x00, 0x01, b] }) ∧
    (s.uneSt = .escaped →
      exec (.unePut b) s = .next { s with uneSt := .normal, rspq := s.rspq ++ [0x00, 0x00, 0x01, b ^^^ 0x20] }) ∧
    (s.uneSt ≠ .escaped →
      exec .uneEnd s = .next { s with uneSt := .first, rspq := s.rspq ++ [0x00, 0x00, 0x00] }) ∧
    (s.uneSt = .escaped →
      exec .uneEnd s = .next { s with uneSt := .first, rspq := s.rspq ++ [0x14, 0x00, 0x00] })

/-- spec/41_codec_engines.md R117 to R121. -/
def Obligations.ChecksumAccumulatorStep : Prop :=
  (∀ r, decode (0x20 :: r) = .cmd .ckInit r) ∧ (∀ b r, decode (0x21 :: b :: r) = .cmd (.ckAdd b) r) ∧
  (∀ r, decode (0x22 :: r) = .cmd .ckGet r) ∧ (∀ r, decode (0x23 :: r) = .cmd .ckRaw r) ∧
  (∀ r, decode (0x24 :: r) = .cmd .ckTest r) ∧
  ∀ (s : State) (b : Byte),
    exec .ckInit s = .next { s with ckAcc := 0x00, rspq := s.rspq ++ [0x00, 0x00, 0x00] } ∧
    (∃ v : Byte, v.toNat = (s.ckAcc.toNat + b.toNat) % 256 ∧
      exec (.ckAdd b) s = .next { s with ckAcc := v, rspq := s.rspq ++ [0x00, 0x00, v] }) ∧
    exec .ckGet s = .next { s with rspq := s.rspq ++ [0x00, 0x00, 0xFF - s.ckAcc] } ∧
    exec .ckRaw s = .next { s with rspq := s.rspq ++ [0x00, 0x00, s.ckAcc] } ∧
    (s.ckAcc = 0xFF → exec .ckTest s = .next { s with rspq := s.rspq ++ [0x00, 0x00, 0x00] }) ∧
    (s.ckAcc ≠ 0xFF → exec .ckTest s = .next { s with rspq := s.rspq ++ [0x13, 0x00, 0x00] })

/-- spec/41_codec_engines.md R112, derived there from R101, R110, R111: ESC.INIT and one ESC.PUT per byte emit exactly
`escape` of the sequence. -/
def Obligations.EscapeEngineEmitsEscape : Prop :=
  ∀ (s : State) (bs : List Byte), ∃ tails : List (List Byte),
    tails.length = bs.length ∧ tails.flatten = escape bs ∧
    commandRun (pseudoEscSeq bs) s = .next { s with
      escSt := if bs = [] then .first else .rest
      rspq := s.rspq ++ [0x00, 0x00, 0x00] ++
        (tails.map fun t => [0x00, 0x00, BitVec.ofNat 8 t.length] ++ t).flatten }

/-- spec/41_codec_engines.md R116, derived there from R103, R113 to R115: UNE.INIT, one UNE.PUT per byte and UNE.END
emit exactly `unescape` of the sequence, or its output up to the dangling byte and then DanglingEscape; UNE_ST is FIRST
afterwards. -/
def Obligations.UnescapeEngineEmitsUnescape : Prop :=
  ∀ (s : State) (bs : List Byte), ∃ (tails : List (List Byte)) (st : Byte),
    tails.length = bs.length ∧
    (∀ u, unescape bs = some u → tails.flatten = u ∧ st = 0x00) ∧
    (unescape bs = none → unescape bs.dropLast = some tails.flatten ∧ bs.getLast? = some 0x7D ∧ st = 0x14) ∧
    commandRun (pseudoUneSeq bs) s = .next { s with
      uneSt := .first
      rspq := s.rspq ++ [0x00, 0x00, 0x00] ++
        (tails.map fun t => [0x00, 0x00, BitVec.ofNat 8 t.length] ++ t).flatten ++ [st, 0x00, 0x00] }

/-- spec/41_codec_engines.md R122, derived there from R106, R117 to R121: the accumulator commands compute `cksum`,
CK.GET answers its complement, and adding that complement makes CK.TEST answer OK. -/
def Obligations.ChecksumEngineComputesCksum : Prop :=
  ∀ (s : State) (bs : List Byte), ∃ out : List Byte,
    out.length = 3 * bs.length + 3 ∧
    commandRun (.ckInit :: bs.map .ckAdd) s = .next { s with ckAcc := cksum bs, rspq := s.rspq ++ out } ∧
    commandRun (pseudoCkSeq bs) s = .next { s with
      ckAcc := cksum bs
      rspq := s.rspq ++ out ++ [0x00, 0x00, 0xFF - cksum bs] } ∧
    commandRun (.ckInit :: bs.map .ckAdd ++ [.ckAdd (0xFF - cksum bs), .ckTest]) s = .next { s with
      ckAcc := 0xFF
      rspq := s.rspq ++ out ++ [0x00, 0x00, 0xFF] ++ [0x00, 0x00, 0x00] }

/-! ### Codec functions -/

/-- spec/41_codec_engines.md R100, R101: the first byte is copied, each later one is escaped if reserved, and the output
is as long as the input plus the number of escaped bytes, at most twice the input less one. -/
def Obligations.EscapeCopiesFirstAndEscapesTheRest : Prop :=
  escape [] = [] ∧
  ∀ (b0 : Byte) (r : List Byte),
    escape (b0 :: r) = b0 :: (r.map fun b =>
      if b = 0x7E ∨ b = 0x7D ∨ b = 0x11 ∨ b = 0x13 then [0x7D, b ^^^ 0x20] else [b]).flatten ∧
    (escape (b0 :: r)).length =
      (b0 :: r).length + r.countP (fun b => b = 0x7E ∨ b = 0x7D ∨ b = 0x11 ∨ b = 0x13) ∧
    (escape (b0 :: r)).length ≤ 2 * (b0 :: r).length - 1

/-- spec/41_codec_engines.md R103: the first byte is copied; after it a 0x7D joins the next byte, whatever that is, into
one output byte; a last lone 0x7D fails; every other byte is copied. -/
def Obligations.UnescapeFollowsItsRules : Prop :=
  unescape [] = some [] ∧
  ∀ (b0 b c : Byte) (r : List Byte),
    unescape [b0] = some [b0] ∧
    unescape [b0, 0x7D] = none ∧
    unescape (b0 :: 0x7D :: c :: r) = (unescape ((c ^^^ 0x20) :: r)).map (b0 :: ·) ∧
    (b ≠ 0x7D → unescape (b0 :: b :: r) = (unescape (b :: r)).map (b0 :: ·))

/-- spec/41_codec_engines.md R105, derived there from R101, R103. -/
def Obligations.UnescapeInvertsEscape : Prop :=
  ∀ s : List Byte, unescape (escape s) = some s

/-- spec/41_codec_engines.md R104, derived there from R103: `pos` gives, for each output byte, the input index that
completes it; the output is no longer than the input and longer than half of it. -/
def Obligations.PositionsCompleteEachOutputByte : Prop :=
  ∀ w u : List Byte, unescape w = some u →
    u.length ≤ w.length ∧ (w ≠ [] → w.length + 1 ≤ 2 * u.length) ∧
    (posList w).length = u.length ∧ (posList w).Pairwise (· < ·) ∧
    (w ≠ [] → (posList w)[0]? = some 0 ∧ (posList w)[u.length - 1]? = some (w.length - 1)) ∧
    ∀ j k, (posList w)[j]? = some k → unescape (w.take (k + 1)) = some (u.take (j + 1))

/-- spec/41_codec_engines.md R106. -/
def Obligations.ChecksumByteCompletesTheSum : Prop :=
  cksum [] = 0 ∧
  ∀ d : List Byte,
    (cksum d).toNat = (d.map BitVec.toNat).sum % 256 ∧ 0xFF - cksum d = ~~~(cksum d) ∧
    cksum (d ++ [0xFF - cksum d]) = 0xFF

/-! ### SEND and RECV -/

/-- spec/42_frame.md R130, R131, spec/30_encoding.md R71, R75: SEND builds the frame field by field, escapes it, and
answers its length and bytes, or PayloadTooLarge when N > MAX_PAYLOAD; it writes nothing but RSPQ. -/
def Obligations.SendBuildsAndEscapesTheFrame : Prop :=
  (∀ (n hi lo : Byte) (p r : List Byte), p.length = n.toNat →
    decode (0x30 :: n :: hi :: lo :: (p ++ r)) = .cmd (.send (hi ++ lo) p) r) ∧
  ∀ (s : State) (addr : Half) (p : List Byte),
    let body : List Byte := [0x01, 0x00, addr.extractLsb' 8 8, addr.extractLsb' 0 8, 0x01] ++ p
    let frame : List Byte := [0x7E, 0x00, BitVec.ofNat 8 (p.length + 5)] ++ body ++ [0xFF - cksum body]
    let len : Half := BitVec.ofNat 16 (escape frame).length
    (p.length ≤ s.cfg.scratchSize - 9 →
      exec (.send addr p) s = .next { s with rspq := s.rspq ++ ([0x00, hiByte len, loByte len] ++ escape frame) }) ∧
    (s.cfg.scratchSize - 9 < p.length →
      exec (.send addr p) s = .next { s with rspq := s.rspq ++ [0x18, 0x00, 0x00] })

/-- spec/42_frame.md R132, spec/30_encoding.md R74, R77: the wire frame starts with 0x7E, its length is N + 9 plus the
number of escaped bytes, at most 2N + 13 and at most 194 for N ≤ 91, no reserved byte stands unescaped after index 0,
and unescaping gives the frame back. (R132, R74 and R77 are derived there.) -/
def Obligations.WireFrameHasNoBareReservedByte : Prop :=
  ∀ (addr : Half) (p : List Byte), p.length ≤ 250 →
    (escape (buildFrame addr p)).head? = some 0x7E ∧
    (buildFrame addr p).length = p.length + 9 ∧
    (escape (buildFrame addr p)).length = p.length + 9 + (buildFrame addr p).tail.countP isReserved ∧
    (escape (buildFrame addr p)).length ≤ 2 * p.length + 13 ∧
    (p.length ≤ 91 → (escape (buildFrame addr p)).length ≤ 194) ∧
    (∀ (k : Nat) (b : Byte), 1 ≤ k → (escape (buildFrame addr p))[k]? = some b →
      b ≠ 0x7E ∧ b ≠ 0x11 ∧ b ≠ 0x13 ∧
      (b = 0x7D → ∃ c : Byte, (escape (buildFrame addr p))[k + 1]? = some c ∧
        (c = 0x5E ∨ c = 0x5D ∨ c = 0x31 ∨ c = 0x33))) ∧
    unescape (escape (buildFrame addr p)) = some (buildFrame addr p)

/-- spec/42_frame.md R133 to R137, R140, spec/60_exceptions.md R204: RECV's checks in their order, the status of the
first that fails, and the response of an accepted window; it writes nothing but RSPQ. -/
def Obligations.RecvReportsTheFirstFailedCheck : Prop :=
  (∀ (hi lo : Byte) (w r : List Byte), w.length = hi.toNat * 256 + lo.toNat →
    decode (0x31 :: hi :: lo :: (w ++ r)) = .cmd (.recv w) r) ∧
  ∀ (s : State) (w : List Byte),
    (s.cfg.rinSize < w.length → exec (.recv w) s = .next { s with rspq := s.rspq ++ [0x02, 0x00, 0x00] }) ∧
    (w.length ≤ s.cfg.rinSize →
      (w = [] → exec (.recv w) s = .next { s with rspq := s.rspq ++ [0x11, 0x00, 0x00] }) ∧
      (w ≠ [] → w.head? ≠ some 0x7E →
        exec (.recv w) s = .next { s with rspq := s.rspq ++ [0x10, 0x00, 0x00] }) ∧
      (w.head? = some 0x7E → w.length < 10 →
        exec (.recv w) s = .next { s with rspq := s.rspq ++ [0x11, 0x00, 0x00] }) ∧
      (w.head? = some 0x7E → 10 ≤ w.length →
        (unescape w = none → exec (.recv w) s = .next { s with rspq := s.rspq ++ [0x14, 0x00, 0x00] }) ∧
        ∀ u, unescape w = some u →
          let D := (u.getD 1 0).toNat * 256 + (u.getD 2 0).toNat
          let lengthFits := (s.ctrl.getLsbD 0 = false ∧ D = u.length - 4) ∨ (s.ctrl.getLsbD 0 = true ∧ D ≤ u.length - 4)
          let len : Half := BitVec.ofNat 16 u.length
          6 ≤ u.length ∧
          (¬lengthFits → exec (.recv w) s = .next { s with rspq := s.rspq ++ [0x12, 0x00, 0x00] }) ∧
          (lengthFits → cksum ((u.drop 3).take (D + 1)) ≠ 0xFF →
            exec (.recv w) s = .next { s with rspq := s.rspq ++ [0x13, 0x00, 0x00] }) ∧
          (lengthFits → cksum ((u.drop 3).take (D + 1)) = 0xFF →
            ∃ k, (posList w)[D + 3]? = some k ∧
              exec (.recv w) s = .next { s with rspq := s.rspq ++
                ([0x00, hiByte len, loByte len, hiByte (BitVec.ofNat 16 (k + 1)), loByte (BitVec.ofNat 16 (k + 1))] ++
                  u) })))

/-- spec/42_frame.md R136, R141: of a window that RECV accepts, the first CONSUMED bytes are one whole frame: they
unescape to a frame of exactly the declared length whose bytes from the type through the checksum sum to 0xFF, and under
the strict policy they are the whole window. (R141 is derived there.) -/
def Obligations.ConsumedBytesAreOneFrame : Prop :=
  ∀ (s t : State) (w tl : List Byte), s.cfg.Legal → exec (.recv w) s = .next t → t.rspq = s.rspq ++ 0x00 :: tl →
    ∃ (u : List Byte) (c D : Nat), unescape w = some u ∧ D = (u.getD 1 0).toNat * 256 + (u.getD 2 0).toNat ∧
      tl = [hiByte (BitVec.ofNat 16 u.length), loByte (BitVec.ofNat 16 u.length),
        hiByte (BitVec.ofNat 16 c), loByte (BitVec.ofNat 16 c)] ++ u ∧
      D + 4 ≤ u.length ∧ c ≤ w.length ∧ unescape (w.take c) = some (u.take (D + 4)) ∧
      cksum ((u.drop 3).take (D + 1)) = 0xFF ∧
      (s.ctrl.getLsbD 0 = false → c = w.length ∧ u.length = D + 4)

/-- spec/42_frame.md R142, derived there from R105, R130 to R140: what SEND answers, RECV accepts under either length
policy, with the frame, the payload and the address recovered; an empty payload comes back exactly when escaping made
the frame longer than 9 bytes. -/
def Obligations.RecvRecoversWhatSendBuilt : Prop :=
  ∀ (s : State) (addr : Half) (p : List Byte), s.cfg.Legal → p.length ≤ s.cfg.maxPayload →
    ∃ (W F : List Byte) (t : State),
      exec (.send addr p) s = .next t ∧
      t = { s with rspq := s.rspq ++
        ([0x00, hiByte (BitVec.ofNat 16 W.length), loByte (BitVec.ofNat 16 W.length)] ++ W) } ∧
      F = buildFrame addr p ∧ F.getD 3 0 = 0x01 ∧ F.getD 5 0 ++ F.getD 6 0 = addr ∧ (F.drop 8).take p.length = p ∧
      (p ≠ [] ∨ isReserved (hiByte addr) = true ∨ isReserved (loByte addr) = true ∨ isReserved (F.getD 8 0) = true →
        exec (.recv W) t = .next { t with rspq := t.rspq ++
          ([0x00, hiByte (BitVec.ofNat 16 (p.length + 9)), loByte (BitVec.ofNat 16 (p.length + 9)),
            hiByte (BitVec.ofNat 16 W.length), loByte (BitVec.ofNat 16 W.length)] ++ F) }) ∧
      (¬(p ≠ [] ∨ isReserved (hiByte addr) = true ∨ isReserved (loByte addr) = true ∨
          isReserved (F.getD 8 0) = true) →
        exec (.recv W) t = .next { t with rspq := t.rspq ++ [0x11, 0x00, 0x00] })

/-- spec/42_frame.md R143, with R134: a wire frame with any one bit of its last byte flipped is rejected under either
length policy. R143 names DanglingEscape and ChecksumMismatch; a frame of 9 bytes (an empty payload and no escape) is
TooShort before either, by R134, which R143 does not mention (notes/assumptions/9.md). (R143 is derived there.) -/
def Obligations.FlippedLastBitIsRejected : Prop :=
  ∀ (s : State) (addr : Half) (p : List Byte) (k : Nat), s.cfg.Legal → p.length ≤ s.cfg.maxPayload → k < 8 →
    let W := escape (buildFrame addr p)
    let last := W.getLastD 0 ^^^ BitVec.ofNat 8 (2 ^ k)
    let W' := W.dropLast ++ [last]
    (W.length = 9 → exec (.recv W') s = .next { s with rspq := s.rspq ++ [0x11, 0x00, 0x00] }) ∧
    (W.length ≠ 9 → last = 0x7D → isReserved ((buildFrame addr p).getLastD 0) = false →
      exec (.recv W') s = .next { s with rspq := s.rspq ++ [0x14, 0x00, 0x00] }) ∧
    (W.length ≠ 9 → ¬(last = 0x7D ∧ isReserved ((buildFrame addr p).getLastD 0) = false) →
      exec (.recv W') s = .next { s with rspq := s.rspq ++ [0x13, 0x00, 0x00] })

/-- spec/42_frame.md R138: SEND and RECV write no state but RSPQ; SEND's answer depends on no register, RECV's on
CTRL.LENPOL alone. -/
def Obligations.SendAndRecvReadNoRegisterButLenpol : Prop :=
  ∀ s1 s2 : State, s1.cfg = s2.cfg →
    (∀ (addr : Half) (p : List Byte), ∃ r : List Byte,
      exec (.send addr p) s1 = .next { s1 with rspq := s1.rspq ++ r } ∧
      exec (.send addr p) s2 = .next { s2 with rspq := s2.rspq ++ r }) ∧
    ∀ w : List Byte, s1.ctrl.getLsbD 0 = s2.ctrl.getLsbD 0 → ∃ r : List Byte,
      exec (.recv w) s1 = .next { s1 with rspq := s1.rspq ++ r } ∧
      exec (.recv w) s2 = .next { s2 with rspq := s2.rspq ++ r }

/-! ### The ring -/

/-- spec/43_ringbuffer.md R150, R151. -/
def Obligations.EnqueueStoresAtTail : Prop :=
  (∀ b r, decode (0x40 :: b :: r) = .cmd (.rbEnq b) r) ∧
  ∀ (s : State) (b : Byte), PointersOk s → Memory.wf s.store →
    (s.size.toNat = s.cfg.cap → exec (.rbEnq b) s = .next { s with rspq := s.rspq ++ [0x20, 0x00, 0x00] }) ∧
    (s.size.toNat < s.cfg.cap → ∃ m : Memory,
      exec (.rbEnq b) s = .next { s with
        store := m, tail := BitVec.ofNat 16 ((s.tail.toNat + 1) % s.cfg.cap), size := s.size + 1,
        rspq := s.rspq ++ [0x00, 0x00, 0x01] } ∧
      ∀ a, Memory.read m a = if a = s.tail.toNat then b else Memory.read s.store a)

/-- spec/43_ringbuffer.md R152: the oldest byte is answered, its slot zeroed, HEAD advanced. -/
def Obligations.DequeueTakesAndZeroesTheOldest : Prop :=
  (∀ r, decode (0x41 :: r) = .cmd .rbDeq r) ∧
  ∀ s : State, PointersOk s → Memory.wf s.store →
    (s.size = 0 → exec .rbDeq s = .next { s with rspq := s.rspq ++ [0x21, 0x00, 0x00] }) ∧
    (s.size ≠ 0 → ∃ m : Memory,
      exec .rbDeq s = .next { s with
        store := m, head := BitVec.ofNat 16 ((s.head.toNat + 1) % s.cfg.cap), size := s.size - 1,
        rspq := s.rspq ++ [0x00, 0x00, Memory.read s.store s.head.toNat] } ∧
      ∀ a, Memory.read m a = if a = s.head.toNat then 0x00 else Memory.read s.store a)

/-- spec/43_ringbuffer.md R153: with n = min(|d|, CAP − SIZE) the first n bytes are stored in the slots from TAIL on, no
other slot is written, RESULT is n, and the status is BufferFull when n < |d|. -/
def Obligations.EnqueueSequenceAcceptsWhatFits : Prop :=
  (∀ (hi lo : Byte) (d r : List Byte), d.length = hi.toNat * 256 + lo.toNat →
    decode (0x42 :: hi :: lo :: (d ++ r)) = .cmd (.rbEnqseq d) r) ∧
  ∀ (s : State) (d : List Byte), PointersOk s → StoreOk s →
    let n := min d.length (s.cfg.cap - s.size.toNat)
    ∃ m : Memory,
      exec (.rbEnqseq d) s = .next { s with
        store := m, tail := BitVec.ofNat 16 ((s.tail.toNat + n) % s.cfg.cap), size := BitVec.ofNat 16 (s.size.toNat + n)
        rspq := s.rspq ++ [if n < d.length then 0x20 else 0x00, hiByte (BitVec.ofNat 16 n), loByte (BitVec.ofNat 16 n)] } ∧
      (∀ k, k < n → d[k]? = some (Memory.read m ((s.tail.toNat + k) % s.cfg.cap))) ∧
      ∀ a, (∀ k, k < n → a ≠ (s.tail.toNat + k) % s.cfg.cap) → Memory.read m a = Memory.read s.store a

/-- spec/43_ringbuffer.md R154. -/
def Obligations.PeekReadsALogicalPosition : Prop :=
  (∀ hi lo r, decode (0x43 :: hi :: lo :: r) = .cmd (.rbPeek (hi ++ lo)) r) ∧
  ∀ (s : State) (off : Half), PointersOk s →
    (s.size = 0 → exec (.rbPeek off) s = .next { s with rspq := s.rspq ++ [0x21, 0x00, 0x00] }) ∧
    (s.size ≠ 0 → s.size.toNat ≤ off.toNat →
      exec (.rbPeek off) s = .next { s with rspq := s.rspq ++ [0x22, 0x00, 0x00] }) ∧
    (off.toNat < s.size.toNat →
      exec (.rbPeek off) s = .next { s with rspq := s.rspq ++
        [0x00, 0x00, Memory.read s.store ((s.head.toNat + off.toNat) % s.cfg.cap)] })

/-- spec/43_ringbuffer.md R155, R166: RB.COPY answers SIZE bytes from the logical position on, around the storage: the
contents from there, then zeros of free slots, then the oldest bytes again. (The last clause is R166, derived there from
R28, R29 and R155.) -/
def Obligations.CopyReadsAroundTheStorage : Prop :=
  (∀ hi lo r, decode (0x44 :: hi :: lo :: r) = .cmd (.rbCopy (hi ++ lo)) r) ∧
  ∀ (s : State) (start : Half), PointersOk s →
    (s.size = 0 → exec (.rbCopy start) s = .next { s with rspq := s.rspq ++ [0x21, 0x00, 0x00] }) ∧
    (s.size ≠ 0 → s.size.toNat ≤ start.toNat →
      exec (.rbCopy start) s = .next { s with rspq := s.rspq ++ [0x22, 0x00, 0x00] }) ∧
    (start.toNat < s.size.toNat → ∃ copy : List Byte,
      exec (.rbCopy start) s = .next { s with rspq := s.rspq ++ ([0x00, hiByte s.size, loByte s.size] ++ copy) } ∧
      copy.length = s.size.toNat ∧
      (∀ k, k < s.size.toNat →
        copy[k]? = some (Memory.read s.store ((s.head.toNat + start.toNat + k) % s.cfg.cap))) ∧
      (FreeSlotsZero s → ∀ k, k < s.size.toNat →
        (start.toNat + k < s.size.toNat → copy[k]? = (contents s)[start.toNat + k]?) ∧
        (s.size.toNat ≤ start.toNat + k → start.toNat + k < s.cfg.cap → copy[k]? = some 0x00) ∧
        (s.cfg.cap ≤ start.toNat + k → copy[k]? = (contents s)[start.toNat + k - s.cfg.cap]?)))

/-- spec/43_ringbuffer.md R156: with n = min(SIZE, upto) the n oldest slots are zeroed, no other slot is written, HEAD
advances by n, TAIL stays, and the count reported is n, or CAP on a full clear with CLRCNT = 1. -/
def Obligations.ClearZeroesTheOldestAndReportsTheCount : Prop :=
  (∀ hi lo r, decode (0x45 :: hi :: lo :: r) = .cmd (.rbClear (hi ++ lo)) r) ∧
  ∀ (s : State) (upto : Half), PointersOk s → StoreOk s →
    let n := min s.size.toNat upto.toNat
    let count : Half :=
      if s.size.toNat ≤ upto.toNat ∧ s.ctrl.getLsbD 1 = true then BitVec.ofNat 16 s.cfg.cap else BitVec.ofNat 16 n
    ∃ m : Memory,
      exec (.rbClear upto) s = .next { s with
        store := m, head := BitVec.ofNat 16 ((s.head.toNat + n) % s.cfg.cap), size := BitVec.ofNat 16 (s.size.toNat - n)
        rspq := s.rspq ++ [0x00, hiByte count, loByte count] } ∧
      (∀ k, k < n → Memory.read m ((s.head.toNat + k) % s.cfg.cap) = 0x00) ∧
      ∀ a, (∀ k, k < n → a ≠ (s.head.toNat + k) % s.cfg.cap) → Memory.read m a = Memory.read s.store a

/-- spec/43_ringbuffer.md R157 to R161, spec/10_state.md R30. -/
def Obligations.RingRegistersAreReported : Prop :=
  (∀ r, decode (0x46 :: r) = .cmd .rbSize r ∧ decode (0x47 :: r) = .cmd .rbHead r ∧ decode (0x48 :: r) = .cmd .rbTail r ∧
    decode (0x49 :: r) = .cmd .rbEmpty r ∧ decode (0x4A :: r) = .cmd .rbFull r) ∧
  ∀ s : State,
    exec .rbSize s = .next { s with rspq := s.rspq ++ [0x00, hiByte s.size, loByte s.size] } ∧
    exec .rbHead s = .next { s with rspq := s.rspq ++ [0x00, hiByte s.head, loByte s.head] } ∧
    exec .rbTail s = .next { s with rspq := s.rspq ++ [0x00, hiByte s.tail, loByte s.tail] } ∧
    exec .rbEmpty s = .next { s with rspq := s.rspq ++ [0x00, 0x00, if s.size = 0 then 0x01 else 0x00] } ∧
    exec .rbFull s = .next { s with rspq := s.rspq ++ [0x00, 0x00, if s.size.toNat = s.cfg.cap then 0x01 else 0x00] }

/-- spec/43_ringbuffer.md R165, derived there from R150 to R155: enqueue on a full ring changes no state, and the reads
of an empty ring change none and answer BufferUnderrun. -/
def Obligations.FullAndEmptyRingsAreNotMutated : Prop :=
  ∀ s : State,
    (s.size.toNat = s.cfg.cap →
      (∀ b, exec (.rbEnq b) s = .next { s with rspq := s.rspq ++ [0x20, 0x00, 0x00] }) ∧
      (∀ d, exec (.rbEnqseq d) s =
        .next { s with rspq := s.rspq ++ [if d = [] then 0x00 else 0x20, 0x00, 0x00] }) ∧
      ∀ b, pushByte b s = .next { s with acks := s.acks ++ [false] }) ∧
    (s.size.toNat = 0 →
      exec .rbDeq s = .next { s with rspq := s.rspq ++ [0x21, 0x00, 0x00] } ∧
      (∀ off, exec (.rbPeek off) s = .next { s with rspq := s.rspq ++ [0x21, 0x00, 0x00] }) ∧
      ∀ start, exec (.rbCopy start) s = .next { s with rspq := s.rspq ++ [0x21, 0x00, 0x00] })

/-- spec/43_ringbuffer.md R163 to R167, spec/10_state.md R29: every command and every push acts on the ring as on the
queue of its contents: enqueue appends what fits, RB.DEQ and RB.CLEAR remove from the front, RESET empties it, and every
other command leaves it alone. (R163 to R167 are derived there.) -/
def Obligations.RingRefinesAQueue : Prop :=
  ∀ s t : State, PointersOk s → StoreOk s →
    (∀ i, exec i s = .next t → contents t =
      match i with
      | .rbEnq b => if (contents s).length = s.cfg.cap then contents s else contents s ++ [b]
      | .rbEnqseq d => contents s ++ d.take (s.cfg.cap - (contents s).length)
      | .rbDeq => (contents s).drop 1
      | .rbClear upto => (contents s).drop upto.toNat
      | .reset => []
      | _ => contents s) ∧
    ∀ b, pushByte b s = .next t →
      contents t = if (contents s).length = s.cfg.cap then contents s else contents s ++ [b]

/-- spec/43_ringbuffer.md R164, derived there from R27, R30, R150: whatever the atomic steps, SIZE stays between 0 and
CAP and RB.FULL says whether it is CAP; from an empty ring, CAP enqueues succeed and the next one fails. -/
def Obligations.RingHoldsExactlyItsCapacity : Prop :=
  (∀ (as : List AtomicStep) (s t : State), PointersOk s → StoreOk s → atomicRun as s = .next t →
    t.size.toNat ≤ t.cfg.cap ∧
    exec .rbFull t = .next { t with rspq := t.rspq ++ [0x00, 0x00, if t.size.toNat = t.cfg.cap then 0x01 else 0x00] }) ∧
  ∀ (s : State) (bs : List Byte) (b : Byte), PointersOk s → StoreOk s → s.size.toNat = 0 → bs.length = s.cfg.cap →
    ∃ t : State, commandRun (bs.map Instr.rbEnq) s = .next t ∧
      t.rspq = s.rspq ++ (bs.map fun _ => ([0x00, 0x00, 0x01] : List Byte)).flatten ∧ t.size.toNat = t.cfg.cap ∧
      exec (.rbEnq b) t = .next { t with rspq := t.rspq ++ [0x20, 0x00, 0x00] }

/-- spec/43_ringbuffer.md R163, derived there from R150, R152: over any run of commands and pushes without RB.CLEAR and
RESET, the bytes reported returned, followed by what is still in the ring, are what was in it followed by the bytes
reported accepted, in order. -/
def Obligations.BytesLeaveInTheOrderAccepted : Prop :=
  ∀ (as : List AtomicStep) (s : State), PointersOk s → StoreOk s →
    (∀ a ∈ as, a ≠ .command .reset ∧ ∀ upto, a ≠ .command (.rbClear upto)) →
    ∃ (accepted returned : List Byte) (t : State), fifoRun as s = some (accepted, returned, t) ∧
      contents s ++ accepted = returned ++ contents t

/-- spec/43_ringbuffer.md R167, spec/70_reset_and_hazards.md R244: pushes between a copy and the clear never move the
bytes copied: HEAD and the old contents stay, the contents after the pushes begin with those before, and RB.CLEAR n then
removes the first n bytes that were there. (R167 and R244 are derived there.) -/
def Obligations.PushesNeverMoveTheCopiedWindow : Prop :=
  ∀ (s : State) (bs : List Byte) (n : Half), PointersOk s → StoreOk s → n.toNat ≤ s.size.toNat →
    ∃ t u : State, atomicRun (bs.map AtomicStep.push) s = .next t ∧
      t.head = s.head ∧ (contents t).take s.size.toNat = contents s ∧
      t = { s with store := t.store, tail := t.tail, size := t.size, acks := t.acks } ∧
      exec (.rbClear n) t = .next u ∧
      contents u = (contents s).drop n.toNat ++ bs.take (s.cfg.cap - s.size.toNat)

/-! ### Whole-machine rules -/

/-- spec/10_state.md R27, R28, R34, R36: from every state with the invariant, a step of any kind gives one with it: the
pointers agree, the free slots are zero, STORE is canonical and inside its capacity, CTRL holds 0..3, CPB holds less
than a command. (R27 and R28 are derived there; the canonical form of STORE is the model's, notes/assumptions/7.md.) -/
def Obligations.EveryStepKeepsTheInvariant : Prop :=
  ∀ s t : State, Inv s → step s = .next t → Inv t

/-- spec/10_state.md R39: the invariant holds right after reset, for every configuration of the block. -/
def Obligations.ResetHasTheInvariant : Prop :=
  Inv State.reset ∧ ∀ c : Config, c.Legal → Inv (State.resetWith c)

/-- spec/10_state.md R39, with the defaults of spec/00_scope.md R8: what each piece of state holds after reset, for every
configuration. -/
def Obligations.ResetValuesAreAsTabled : Prop :=
  State.reset = State.resetWith { cap := 220, scratchSize := 100, rinSize := 256 } ∧ State.reset.cfg.maxPayload = 91 ∧
  ∀ c : Config, (State.resetWith c).cfg = c ∧ (∀ a, Memory.read (State.resetWith c).store a = 0x00) ∧
    (State.resetWith c).size = 0 ∧ (State.resetWith c).head = 0 ∧ (State.resetWith c).tail = 0 ∧
    (State.resetWith c).escSt = .first ∧ (State.resetWith c).uneSt = .first ∧ (State.resetWith c).ckAcc = 0x00 ∧
    (State.resetWith c).ctrl = 0x00 ∧ (State.resetWith c).cpb = [] ∧ (State.resetWith c).rspq = []

/-- spec/60_exceptions.md R201, R210: from every state with the invariant a step answers a next state: no command, push,
read or reset stops the block. (That the model has a fault at all is its choice, notes/assumptions/6.md.) -/
def Obligations.NoStepStopsTheBlock : Prop :=
  ∀ s : State, Inv s → SafeStep s

/-- spec/30_encoding.md R86, R87: every command appends exactly one response, a status of the table, a 16-bit RESULT,
and a tail whose length the command, the status and the RESULT fix; an illegal opcode is answered too. -/
def Obligations.EveryCommandGetsOneResponse : Prop :=
  (∀ (i : Instr) (s t : State), s.cfg.Legal → PointersOk s → exec i s = .next t →
    ∃ (st : Byte) (res : Half) (tail : List Byte),
      t.rspq = (if i = .reset then [] else s.rspq) ++ ([st, hiByte res, loByte res] ++ tail) ∧
      st ∈ ([0x00, 0x01, 0x02, 0x10, 0x11, 0x12, 0x13, 0x14, 0x18, 0x20, 0x21, 0x22] : List Byte) ∧
      (st ≠ 0x00 → tail = []) ∧
      (st = 0x00 → tail.length =
        match i with
        | .escPut _ => res.toNat
        | .unePut _ => res.toNat
        | .send _ _ => res.toNat
        | .recv _ => 2 + res.toNat
        | .rbCopy _ => res.toNat
        | _ => 0)) ∧
  ∀ (s : State) (opc : Byte) (r : List Byte), decode s.cpb = .illegal opc r →
    runParsed s = .next { s with cpb := r, rspq := s.rspq ++ [0x01, 0x00, 0x00] }

/-- spec/60_exceptions.md R202: a command that answers a status other than OK changed no state but RSPQ, with RESULT 0
and an empty tail; RB.ENQSEQ has enqueued its first RESULT bytes, UNE.END has set UNE_ST to FIRST. -/
def Obligations.FailedCommandsChangeNothing : Prop :=
  ∀ (i : Instr) (s t : State) (st : Byte) (res : Half) (tail : List Byte), PointersOk s → StoreOk s →
    exec i s = .next t → t.rspq = s.rspq ++ ([st, hiByte res, loByte res] ++ tail) → st ≠ 0x00 →
    tail = [] ∧
    match i with
    | .rbEnqseq d => ∃ t' : State, enqueueAll (d.take res.toNat) s = some (res.toNat, t') ∧
        t = { t' with rspq := t.rspq }
    | .uneEnd => res = 0 ∧ t = { s with uneSt := .first, rspq := t.rspq }
    | _ => res = 0 ∧ t = { s with rspq := t.rspq }

/-- spec/60_exceptions.md R203, derived there from the rules of the commands: the commands that can answer only OK do,
and a push answers nothing at all. -/
def Obligations.SomeCommandsAnswerOnlyOk : Prop :=
  ∀ (s : State) (b : Byte) (upto : Half), Inv s →
    (∀ i ∈ [Instr.nop, .reset, .rdctrl, .wrctrl b, .rdstat, .escInit, .escPut b, .uneInit, .unePut b, .ckInit, .ckAdd b,
        .ckGet, .ckRaw, .rbClear upto, .rbSize, .rbHead, .rbTail, .rbEmpty, .rbFull],
      ∃ (t : State) (res : Half) (tail : List Byte), exec i s = .next t ∧
        t.rspq = (if i = .reset then [] else s.rspq) ++ ([0x00, hiByte res, loByte res] ++ tail)) ∧
    ∃ t : State, pushByte b s = .next t ∧ t.rspq = s.rspq

/-- spec/20_memory.md R57: the reading commands change no state but RSPQ, and repeated at once they answer the same. -/
def Obligations.ReadsRepeatWithoutSideEffect : Prop :=
  ∀ (s : State) (x : Half), PointersOk s →
    ∀ i ∈ [Instr.rbPeek x, .rbCopy x, .rbSize, .rbHead, .rbTail, .rbEmpty, .rbFull, .rdstat, .rdctrl, .ckGet, .ckRaw,
        .ckTest],
      ∃ r : List Byte, exec i s = .next { s with rspq := s.rspq ++ r } ∧
        exec i { s with rspq := s.rspq ++ r } = .next { s with rspq := s.rspq ++ r ++ r }

/-- spec/10_state.md R41, derived there from the rules of the commands: which commands can change which register, RESET
apart. And no command, RESET included, changes cfg, inputs, acks or hostRx (that clause is the model's choice,
notes/assumptions/1.md for cfg, notes/assumptions/4.md for the others). -/
def Obligations.OnlyTheListedCommandsWriteEachRegister : Prop :=
  ∀ (i : Instr) (s t : State), exec i s = .next t →
    t.cfg = s.cfg ∧ t.inputs = s.inputs ∧ t.acks = s.acks ∧ t.hostRx = s.hostRx ∧
    (i ≠ .reset →
      t.cpb = s.cpb ∧ s.rspq <+: t.rspq ∧
      (t.escSt ≠ s.escSt → i = .escInit ∨ ∃ b, i = .escPut b) ∧
      (t.uneSt ≠ s.uneSt → i = .uneInit ∨ i = .uneEnd ∨ ∃ b, i = .unePut b) ∧
      (t.ckAcc ≠ s.ckAcc → i = .ckInit ∨ ∃ b, i = .ckAdd b) ∧
      (t.ctrl ≠ s.ctrl → ∃ a, i = .wrctrl a) ∧
      (t.head ≠ s.head → i = .rbDeq ∨ ∃ u, i = .rbClear u) ∧
      (t.tail ≠ s.tail → (∃ b, i = .rbEnq b) ∨ ∃ d, i = .rbEnqseq d) ∧
      (t.size ≠ s.size ∨ t.store ≠ s.store →
        i = .rbDeq ∨ (∃ u, i = .rbClear u) ∨ (∃ b, i = .rbEnq b) ∨ ∃ d, i = .rbEnqseq d))

/-- spec/00_scope.md R1, spec/42_frame.md R138: the two units share no state: a ring command or a push does the same
whatever the engine registers hold and leaves them so. -/
def Obligations.RingIgnoresTheCodec : Prop :=
  ∀ (s : State) (e : EscState) (u : UneState) (k : Byte) (x : Half) (b : Byte) (d : List Byte),
    (∀ i ∈ [Instr.rbEnq b, .rbDeq, .rbEnqseq d, .rbPeek x, .rbCopy x, .rbClear x, .rbSize, .rbHead, .rbTail, .rbEmpty,
        .rbFull],
      exec i { s with escSt := e, uneSt := u, ckAcc := k } =
        match exec i s with
        | .next t => .next { t with escSt := e, uneSt := u, ckAcc := k }
        | .fault f => .fault f
        | .refused f => .refused f) ∧
    pushByte b { s with escSt := e, uneSt := u, ckAcc := k } =
      match pushByte b s with
      | .next t => .next { t with escSt := e, uneSt := u, ckAcc := k }
      | .fault f => .fault f
      | .refused f => .refused f

/-- spec/00_scope.md R1, spec/20_memory.md R58: a codec or control command does the same whatever the ring holds and
leaves the ring so; so it can change places with a push, and both orders give the same state. -/
def Obligations.CodecCommandsCommuteWithPushes : Prop :=
  ∀ (s : State) (b c : Byte) (addr : Half) (l : List Byte),
    ∀ i ∈ [Instr.nop, .rdctrl, .wrctrl c, .escInit, .escPut c, .uneInit, .unePut c, .uneEnd, .ckInit, .ckAdd c, .ckGet,
        .ckRaw, .ckTest, .send addr l, .recv l],
      atomicRun [.command i, .push b] s = atomicRun [.push b, .command i] s

/-- spec/00_scope.md R8, spec/93_implementation_defined.md S9: the parameters are fixed for the machine, no step of any
kind changes them, and a step under parameters outside their legal ranges is refused. (Parameters carried in the state
are the model's choice, notes/assumptions/1.md.) -/
def Obligations.ParametersAreFixedAndLegal : Prop :=
  (∀ s t : State, step s = .next t → s.cfg.Legal ∧ t.cfg = s.cfg) ∧
  ∀ s : State, ¬s.cfg.Legal → step s = .refused .notAConfiguration
end

