-- ==== Sys2Proof/Laws/State.lean ====
section
/-! SUPPORT. One lemma per field per update: what each named update of the state leaves in each field. -/

namespace Sys2Proof.Machine

/-! ### `finish` writes RSPQ only -/

@[simp] theorem finish_cfg (st : Status) (r : Half) (tl : List Byte) (s : State) : (finish st r tl s).cfg = s.cfg := rfl
@[simp] theorem finish_store (st : Status) (r : Half) (tl : List Byte) (s : State) : (finish st r tl s).store = s.store := rfl
@[simp] theorem finish_head (st : Status) (r : Half) (tl : List Byte) (s : State) : (finish st r tl s).head = s.head := rfl
@[simp] theorem finish_tail (st : Status) (r : Half) (tl : List Byte) (s : State) : (finish st r tl s).tail = s.tail := rfl
@[simp] theorem finish_size (st : Status) (r : Half) (tl : List Byte) (s : State) : (finish st r tl s).size = s.size := rfl
@[simp] theorem finish_escSt (st : Status) (r : Half) (tl : List Byte) (s : State) : (finish st r tl s).escSt = s.escSt := rfl
@[simp] theorem finish_uneSt (st : Status) (r : Half) (tl : List Byte) (s : State) : (finish st r tl s).uneSt = s.uneSt := rfl
@[simp] theorem finish_ckAcc (st : Status) (r : Half) (tl : List Byte) (s : State) : (finish st r tl s).ckAcc = s.ckAcc := rfl
@[simp] theorem finish_ctrl (st : Status) (r : Half) (tl : List Byte) (s : State) : (finish st r tl s).ctrl = s.ctrl := rfl
@[simp] theorem finish_cpb (st : Status) (r : Half) (tl : List Byte) (s : State) : (finish st r tl s).cpb = s.cpb := rfl
@[simp] theorem finish_rspq (st : Status) (r : Half) (tl : List Byte) (s : State) : (finish st r tl s).rspq = s.rspq ++ response st r tl := rfl
@[simp] theorem finish_inputs (st : Status) (r : Half) (tl : List Byte) (s : State) : (finish st r tl s).inputs = s.inputs := rfl
@[simp] theorem finish_acks (st : Status) (r : Half) (tl : List Byte) (s : State) : (finish st r tl s).acks = s.acks := rfl
@[simp] theorem finish_hostRx (st : Status) (r : Half) (tl : List Byte) (s : State) : (finish st r tl s).hostRx = s.hostRx := rfl

/-! ### `writeCtrl` writes CTRL only -/

@[simp] theorem writeCtrl_cfg (a : Byte) (s : State) : (writeCtrl a s).cfg = s.cfg := rfl
@[simp] theorem writeCtrl_store (a : Byte) (s : State) : (writeCtrl a s).store = s.store := rfl
@[simp] theorem writeCtrl_head (a : Byte) (s : State) : (writeCtrl a s).head = s.head := rfl
@[simp] theorem writeCtrl_tail (a : Byte) (s : State) : (writeCtrl a s).tail = s.tail := rfl
@[simp] theorem writeCtrl_size (a : Byte) (s : State) : (writeCtrl a s).size = s.size := rfl
@[simp] theorem writeCtrl_escSt (a : Byte) (s : State) : (writeCtrl a s).escSt = s.escSt := rfl
@[simp] theorem writeCtrl_uneSt (a : Byte) (s : State) : (writeCtrl a s).uneSt = s.uneSt := rfl
@[simp] theorem writeCtrl_ckAcc (a : Byte) (s : State) : (writeCtrl a s).ckAcc = s.ckAcc := rfl
@[simp] theorem writeCtrl_ctrl (a : Byte) (s : State) : (writeCtrl a s).ctrl = a &&& 0x03 := rfl
@[simp] theorem writeCtrl_cpb (a : Byte) (s : State) : (writeCtrl a s).cpb = s.cpb := rfl
@[simp] theorem writeCtrl_rspq (a : Byte) (s : State) : (writeCtrl a s).rspq = s.rspq := rfl
@[simp] theorem writeCtrl_inputs (a : Byte) (s : State) : (writeCtrl a s).inputs = s.inputs := rfl
@[simp] theorem writeCtrl_acks (a : Byte) (s : State) : (writeCtrl a s).acks = s.acks := rfl
@[simp] theorem writeCtrl_hostRx (a : Byte) (s : State) : (writeCtrl a s).hostRx = s.hostRx := rfl

/-! ### `resetState` writes every piece of the block's state (R39) -/

@[simp] theorem resetState_cfg (s : State) : (resetState s).cfg = s.cfg := rfl
@[simp] theorem resetState_store (s : State) : (resetState s).store = [] := rfl
@[simp] theorem resetState_head (s : State) : (resetState s).head = 0 := rfl
@[simp] theorem resetState_tail (s : State) : (resetState s).tail = 0 := rfl
@[simp] theorem resetState_size (s : State) : (resetState s).size = 0 := rfl
@[simp] theorem resetState_escSt (s : State) : (resetState s).escSt = .first := rfl
@[simp] theorem resetState_uneSt (s : State) : (resetState s).uneSt = .first := rfl
@[simp] theorem resetState_ckAcc (s : State) : (resetState s).ckAcc = 0 := rfl
@[simp] theorem resetState_ctrl (s : State) : (resetState s).ctrl = 0 := rfl
@[simp] theorem resetState_cpb (s : State) : (resetState s).cpb = [] := rfl
@[simp] theorem resetState_rspq (s : State) : (resetState s).rspq = [] := rfl
@[simp] theorem resetState_inputs (s : State) : (resetState s).inputs = s.inputs := rfl
@[simp] theorem resetState_acks (s : State) : (resetState s).acks = s.acks := rfl
@[simp] theorem resetState_hostRx (s : State) : (resetState s).hostRx = s.hostRx := rfl

/-! ### `placeCommand` writes CPB and the pending inputs only -/

@[simp] theorem placeCommand_cfg (bs : List Byte) (s : State) : (placeCommand bs s).cfg = s.cfg := rfl
@[simp] theorem placeCommand_store (bs : List Byte) (s : State) : (placeCommand bs s).store = s.store := rfl
@[simp] theorem placeCommand_head (bs : List Byte) (s : State) : (placeCommand bs s).head = s.head := rfl
@[simp] theorem placeCommand_tail (bs : List Byte) (s : State) : (placeCommand bs s).tail = s.tail := rfl
@[simp] theorem placeCommand_size (bs : List Byte) (s : State) : (placeCommand bs s).size = s.size := rfl
@[simp] theorem placeCommand_escSt (bs : List Byte) (s : State) : (placeCommand bs s).escSt = s.escSt := rfl
@[simp] theorem placeCommand_uneSt (bs : List Byte) (s : State) : (placeCommand bs s).uneSt = s.uneSt := rfl
@[simp] theorem placeCommand_ckAcc (bs : List Byte) (s : State) : (placeCommand bs s).ckAcc = s.ckAcc := rfl
@[simp] theorem placeCommand_ctrl (bs : List Byte) (s : State) : (placeCommand bs s).ctrl = s.ctrl := rfl
@[simp] theorem placeCommand_cpb (bs : List Byte) (s : State) : (placeCommand bs s).cpb = bs.dropLast := rfl
@[simp] theorem placeCommand_rspq (bs : List Byte) (s : State) : (placeCommand bs s).rspq = s.rspq := rfl
@[simp] theorem placeCommand_inputs (bs : List Byte) (s : State) : (placeCommand bs s).inputs = .cmdByte (bs.getLastD 0) :: s.inputs := rfl
@[simp] theorem placeCommand_acks (bs : List Byte) (s : State) : (placeCommand bs s).acks = s.acks := rfl
@[simp] theorem placeCommand_hostRx (bs : List Byte) (s : State) : (placeCommand bs s).hostRx = s.hostRx := rfl

/-! ### Shorthands -/

@[simp] theorem fail_eq_finish (st : Status) (s : State) : fail st s = finish st 0 [] s := rfl

@[simp] theorem finishEmit_eq_finish (out : List Byte) (s : State) :
    finishEmit out s = finish .ok (half out.length) out s := rfl

/-- `finish` as the record update it is. -/
theorem finish_eq (st : Status) (r : Half) (tl : List Byte) (s : State) :
    finish st r tl s = { s with rspq := s.rspq ++ response st r tl } := rfl

theorem response_eq (st : Status) (r : Half) (tl : List Byte) :
    response st r tl = [st.code, hiByte r, loByte r] ++ tl := rfl

@[simp] theorem response_length (st : Status) (r : Half) (tl : List Byte) :
    (response st r tl).length = tl.length + 3 := rfl

@[simp] theorem resetWith_cfg (c : Config) : (State.resetWith c).cfg = c := rfl

end Sys2Proof.Machine
end

