-- ==== Sys2Proof/Laws/Operands.lean ====
section
/-! SUPPORT. Laws of the operand and byte-order helpers. -/

namespace Sys2Proof

/-- Joining the two bytes of a 16-bit field gives the field back. -/
@[simp] theorem be16_hiByte_loByte (w : Half) : be16 (hiByte w) (loByte w) = w := by
  unfold be16 hiByte loByte
  ext i hi
  simp only [BitVec.getElem_append, BitVec.getElem_extractLsb']
  split <;> simp [BitVec.getLsbD_eq_getElem, *]
  next h => simp [show 8 + (i - 8) = i by omega, BitVec.getLsbD_eq_getElem, hi]

@[simp] theorem hiByte_be16 (hi lo : Byte) : hiByte (be16 hi lo) = hi := by
  unfold be16 hiByte
  ext i h
  simp only [BitVec.getElem_extractLsb', BitVec.getLsbD_append]
  simp [BitVec.getLsbD_eq_getElem, h]

@[simp] theorem loByte_be16 (hi lo : Byte) : loByte (be16 hi lo) = lo := by
  unfold be16 loByte
  ext i h
  simp only [BitVec.getElem_extractLsb', BitVec.getLsbD_append]
  simp [BitVec.getLsbD_eq_getElem, h]

/-- R82: `B = byte_hi·256 + byte_lo`. -/
theorem be16_toNat (hi lo : Byte) : (be16 hi lo).toNat = hi.toNat * 256 + lo.toNat := by
  unfold be16
  have := lo.isLt
  rw [BitVec.toNat_append, ← Nat.shiftLeft_add_eq_or_of_lt this, Nat.shiftLeft_eq]

namespace Machine

theorem half_toNat {n : Nat} (h : n ≤ 65535) : (half n).toNat = n := by
  unfold half
  rw [BitVec.toNat_ofNat]
  omega

@[simp] theorem half_toNat_self (w : Half) : half w.toNat = w := by
  unfold half
  simp

@[simp] theorem hiByte_zext16 (b : Byte) : hiByte (zext16 b) = 0 := by
  revert b
  decide

@[simp] theorem loByte_zext16 (b : Byte) : loByte (zext16 b) = b := by
  revert b
  decide

/-- The complement is the bitwise one (R10, R106). -/
theorem complement_eq_not (b : Byte) : complement b = ~~~b := by
  revert b
  decide

theorem complement_toNat (b : Byte) : (complement b).toNat = 255 - b.toNat := by
  unfold complement
  rw [BitVec.toNat_ofNat]
  omega

theorem addMod256_eq_add (a b : Byte) : addMod256 a b = a + b := by
  apply BitVec.eq_of_toNat_eq
  simp [addMod256, BitVec.toNat_add]

end Machine
end Sys2Proof
end

