-- ==== Sys2Proof/Laws/Codec.lean ====
section
/-! SUPPORT. Laws of the codec's small functions: one lemma per case of an escape, the lengths, and the checksum as a sum
(spec/41_codec_engines.md R100 to R106, spec/42_frame.md R130). -/

namespace Sys2Proof.Machine

/-! ### Escaping one byte -/

theorem escByte_of_reserved {b : Byte} (h : isReserved b = true) : escByte b = [escByteValue, b ^^^ xorMask] := if_pos h

theorem escByte_of_not_reserved {b : Byte} (h : ¬isReserved b = true) : escByte b = [b] := if_neg h

theorem isReserved_iff (b : Byte) : isReserved b = true ↔ b = 0x7E ∨ b = 0x7D ∨ b = 0x11 ∨ b = 0x13 := by
  simp [isReserved, or_assoc]

theorem isReserved_escByteValue : isReserved escByteValue = true := rfl

theorem xorMask_involutive (b : Byte) : (b ^^^ xorMask) ^^^ xorMask = b := by simp [xorMask]

theorem escape_cons (b : Byte) (r : List Byte) : escape (b :: r) = b :: r.flatMap escByte := rfl

/-! ### Unescaping, case by case -/

theorem unescape_cons (b : Byte) (r : List Byte) : unescape (b :: r) = (unescapeRest r).map (b :: ·) := rfl

theorem unescapeRest_nil : unescapeRest [] = some [] := rfl

theorem unescapeRest_dangling : unescapeRest [escByteValue] = none := rfl

theorem unescapeRest_pair (c : Byte) (r : List Byte) :
    unescapeRest (escByteValue :: c :: r) = (unescapeRest r).map ((c ^^^ xorMask) :: ·) := by
  rw [unescapeRest, if_pos rfl]

theorem unescapeRest_plain {b : Byte} (h : b ≠ escByteValue) (r : List Byte) :
    unescapeRest (b :: r) = (unescapeRest r).map (b :: ·) := by
  cases r with
  | nil => simp [unescapeRest, h]
  | cons c r => rw [unescapeRest, if_neg h]

/-! ### The checksum -/

theorem cksum_nil : cksum [] = 0 := rfl

theorem cksum_append (a b : List Byte) : cksum (a ++ b) = cksum a + cksum b := by
  apply BitVec.eq_of_toNat_eq
  simp [cksum, List.sum_append]

theorem cksum_singleton (b : Byte) : cksum [b] = b := by simp [cksum]

theorem cksum_cons (b : Byte) (r : List Byte) : cksum (b :: r) = b + cksum r := by
  rw [← List.singleton_append, cksum_append, cksum_singleton]

theorem complement_eq_sub (c : Byte) : complement c = 0xFF - c := by
  revert c
  decide

/-! ### The frame -/

theorem frameBody_length (addr : Half) (p : List Byte) : (frameBody addr p).length = p.length + 5 := by simp [frameBody]

theorem buildFrame_length (addr : Half) (p : List Byte) : (buildFrame addr p).length = p.length + 9 := by
  simp [buildFrame, frameBody]

end Sys2Proof.Machine
end

