-- ==== Sys2Proof/Laws/Decode.lean ====
section
/-! SUPPORT. Laws of the decoder: its operand helpers, and one lemma that says once what each opcode byte decodes to, so
that no later proof splits the opcode map again (spec/30_encoding.md R81 to R85). -/

namespace Sys2Proof

/-- A tail that has arrived in full is taken whole. -/
theorem takeTail_exact {n : Nat} {p : List Byte} (r : List Byte) (mk : List Byte → Instr) (h : p.length = n) :
    takeTail n (p ++ r) mk = .cmd (mk p) r := by
  subst h
  simp [takeTail]

/-- What a taken tail is. -/
theorem takeTail_cmd {n : Nat} {r rest : List Byte} {mk : List Byte → Instr} {i : Instr}
    (h : takeTail n r mk = .cmd i rest) : ∃ p, p.length = n ∧ r = p ++ rest ∧ i = mk p := by
  unfold takeTail at h
  split at h
  · next hn =>
    cases h
    exact ⟨r.take n, by simp [hn], by simp, rfl⟩
  · cases h

theorem takeTail_not_illegal {n : Nat} {r rest : List Byte} {mk : List Byte → Instr} {opc : Byte} :
    takeTail n r mk ≠ .illegal opc rest := by
  unfold takeTail
  split <;> simp

theorem takeTail_incomplete {n : Nat} {r : List Byte} {mk : List Byte → Instr} :
    takeTail n r mk = .incomplete ↔ r.length < n := by
  unfold takeTail
  split
  · simp; omega
  · simp; omega

/-- The six kinds of opcode byte, with their encodings, decoding and command length: formats F0, FA, FB, FB with a tail of
B bytes, FAB with a tail of A bytes, and illegal. -/
theorem decodeOpcode_cases (opc : Byte) :
    (∃ i, encode i = [opc] ∧ i.wellFormed = true ∧ (∀ r, decodeOpcode opc r = .cmd i r) ∧
      ∀ r, commandLength (opc :: r) = 1) ∨
    (∃ mk : Byte → Instr, (∀ a, encode (mk a) = [opc, a] ∧ (mk a).wellFormed = true) ∧
      (∀ r, decodeOpcode opc r = takeA r mk) ∧ ∀ r, commandLength (opc :: r) = 2) ∨
    (∃ mk : Half → Instr, (∀ b, encode (mk b) = [opc, hiByte b, loByte b] ∧ (mk b).wellFormed = true) ∧
      (∀ r, decodeOpcode opc r = takeB r mk) ∧ ∀ r, commandLength (opc :: r) = 3) ∨
    (∃ mk : List Byte → Instr,
      (∀ p, encode (mk p) = [opc, hiByte (BitVec.ofNat 16 p.length), loByte (BitVec.ofNat 16 p.length)] ++ p ∧
        ((mk p).wellFormed = true ↔ p.length ≤ 65535)) ∧
      (∀ r, decodeOpcode opc r = takeBTail r mk) ∧
      ∀ r, commandLength (opc :: r) = 3 + (be16 (headerByte (opc :: r) 1) (headerByte (opc :: r) 2)).toNat) ∨
    (∃ mk : Half → List Byte → Instr,
      (∀ a p, encode (mk a p) = [opc, BitVec.ofNat 8 p.length, hiByte a, loByte a] ++ p ∧
        ((mk a p).wellFormed = true ↔ p.length ≤ 255)) ∧
      (∀ r, decodeOpcode opc r = takeABTail r mk) ∧
      ∀ r, commandLength (opc :: r) = 4 + (headerByte (opc :: r) 1).toNat) ∨
    ((∀ r, decodeOpcode opc r = .illegal opc r) ∧ ∀ r, commandLength (opc :: r) = 1) := by
  have e : ∀ n, opc.toNat = n → opc = BitVec.ofNat 8 n := fun n h => by rw [← h]; simp
  by_cases h : decodeOpcode opc [] = .illegal opc []
  · right; right; right; right; right
    unfold decodeOpcode at h ⊢
    constructor
    · split at h <;> simp_all [takeA, takeB, takeBTail, takeABTail]
    · intro r
      show (match opc.toNat with
        | 0x03 | 0x11 | 0x19 | 0x21 | 0x40 => 2
        | 0x43 | 0x44 | 0x45 => 3
        | 0x31 | 0x42 => 3 + (be16 (headerByte _ 1) (headerByte _ 2)).toNat
        | 0x30 => 4 + (headerByte _ 1).toNat
        | _ => 1) = 1
      split at h <;> simp_all [takeA, takeB, takeBTail, takeABTail]
  · unfold decodeOpcode at h
    split at h <;> first | (exfalso; exact h rfl) | skip
    all_goals
      rename_i hx
      have hx := e _ hx
      subst hx
    all_goals first
      | (left; exact ⟨_, rfl, rfl, fun _ => rfl, fun _ => rfl⟩)
      | (right; left; exact ⟨_, fun _ => ⟨rfl, rfl⟩, fun _ => rfl, fun _ => rfl⟩)
      | (right; right; left; exact ⟨_, fun _ => ⟨rfl, rfl⟩, fun _ => rfl, fun _ => rfl⟩)
      | (right; right; right; left; exact ⟨_, fun _ => ⟨rfl, by simp [Instr.wellFormed]⟩, fun _ => rfl, fun _ => rfl⟩)
      | (right; right; right; right; left
         exact ⟨_, fun _ _ => ⟨rfl, by simp [Instr.wellFormed]⟩, fun _ => rfl, fun _ => rfl⟩)


theorem decode_nil : decode [] = .incomplete := rfl

theorem decode_cons (opc : Byte) (r : List Byte) : decode (opc :: r) = decodeOpcode opc r := rfl

end Sys2Proof
end

