-- ==== Sys2Proof/Laws/Memory.lean ====
section
/-! SUPPORT. STORE's laws: what a read gives after a write, and that every write keeps the canonical form. -/

namespace Sys2Proof.Machine

@[simp] theorem Memory.read_nil (a : Nat) : Memory.read [] a = 0 := rfl

theorem Memory.read_cons (k a : Nat) (v : Byte) (r : Memory) :
    Memory.read ((k, v) :: r) a = if k = a then v else Memory.read r a := rfl

/-- A slot below every listed one reads as unlisted. -/
theorem Memory.read_eq_zero_of_lt {m : Memory} {a : Nat} (h : ∀ c ∈ m, a < c.1) : Memory.read m a = 0 := by
  induction m with
  | nil => rfl
  | cons c r ih =>
    obtain ⟨k, v⟩ := c
    have hk : a < k := h (k, v) (by simp)
    rw [Memory.read_cons, if_neg (by omega)]
    exact ih fun c hc => h c (by simp [hc])

/-- A write leaves every other slot alone. -/
theorem Memory.read_write_other (m : Memory) {a a' : Nat} (b : Byte) (h : a' ≠ a) :
    Memory.read (Memory.write m a b) a' = Memory.read m a' := by
  induction m with
  | nil =>
    unfold Memory.write
    split
    · rfl
    · simp [Memory.read_cons, Ne.symm h]
  | cons c r ih =>
    obtain ⟨k, v⟩ := c
    unfold Memory.write
    split
    · split
      · rfl
      · simp [Memory.read_cons, Ne.symm h]
    · split
      · subst_vars
        split <;> simp [Memory.read_cons, Ne.symm h]
      · simp [Memory.read_cons, ih]

/-- A read gives the value last written. -/
theorem Memory.read_write_same {m : Memory} (hm : Memory.wf m) (a : Nat) (b : Byte) :
    Memory.read (Memory.write m a b) a = b := by
  induction m with
  | nil =>
    unfold Memory.write
    split
    · simp_all [Memory.unlisted]
    · simp [Memory.read_cons]
  | cons c r ih =>
    obtain ⟨k, v⟩ := c
    obtain ⟨hs, hz⟩ := hm
    rw [List.pairwise_cons] at hs
    have hr : Memory.wf r := ⟨hs.2, fun c hc => hz c (by simp [hc])⟩
    unfold Memory.write
    split
    · next hlt =>
      split
      · next hb =>
        rw [Memory.read_eq_zero_of_lt]
        · exact hb.symm
        · intro c hc
          rcases List.mem_cons.1 hc with rfl | hc
          · exact hlt
          · exact lt_trans hlt (hs.1 c hc)
      · simp [Memory.read_cons]
    · split
      · next he =>
        subst he
        split
        · next hb => rw [Memory.read_eq_zero_of_lt (fun c hc => hs.1 c hc)]; exact hb.symm
        · simp [Memory.read_cons]
      · next hne => rw [Memory.read_cons, if_neg (Ne.symm hne), ih hr]

theorem Memory.read_write {m : Memory} (hm : Memory.wf m) (a a' : Nat) (b : Byte) :
    Memory.read (Memory.write m a b) a' = if a' = a then b else Memory.read m a' := by
  split
  · next h => subst h; exact Memory.read_write_same hm _ b
  · next h => exact Memory.read_write_other m b h

/-- Every cell of a written memory is the one written or an old one. -/
theorem Memory.mem_write {m : Memory} {a : Nat} {b : Byte} {c : Host.Cell} (h : c ∈ Memory.write m a b) :
    (c = (a, b) ∧ b ≠ 0) ∨ c ∈ m := by
  induction m with
  | nil =>
    unfold Memory.write at h
    split at h
    · simp at h
    · next hb => exact .inl ⟨by simpa using h, hb⟩
  | cons d r ih =>
    obtain ⟨k, v⟩ := d
    unfold Memory.write at h
    split at h
    · split at h
      · exact .inr h
      · next hb =>
        rcases List.mem_cons.1 h with rfl | h
        · exact .inl ⟨rfl, hb⟩
        · exact .inr h
    · split at h
      · split at h
        · exact .inr (by simp [h])
        · next hb =>
          rcases List.mem_cons.1 h with rfl | h
          · exact .inl ⟨rfl, hb⟩
          · exact .inr (by simp [h])
      · rcases List.mem_cons.1 h with rfl | h
        · exact .inr (by simp)
        · rcases ih h with h | h
          · exact .inl h
          · exact .inr (by simp [h])

/-- The empty memory is in canonical form. -/
theorem Memory.wf_nil : Memory.wf [] := ⟨List.Pairwise.nil, by simp⟩

/-- A write keeps the canonical form. -/
theorem Memory.wf_write {m : Memory} (hm : Memory.wf m) (a : Nat) (b : Byte) : Memory.wf (Memory.write m a b) := by
  refine ⟨?_, fun c hc => ?_⟩
  · induction m with
    | nil =>
      unfold Memory.write
      split <;> simp
    | cons c r ih =>
      obtain ⟨k, v⟩ := c
      obtain ⟨hs, hz⟩ := hm
      have hs' := hs
      rw [List.pairwise_cons] at hs
      have hr : Memory.wf r := ⟨hs.2, fun c hc => hz c (by simp [hc])⟩
      unfold Memory.write
      split
      · next hlt =>
        split
        · exact hs'
        · refine List.pairwise_cons.2 ⟨fun c hc => ?_, hs'⟩
          rcases List.mem_cons.1 hc with rfl | hc
          · exact hlt
          · exact lt_trans hlt (hs.1 c hc)
      · split
        · next he =>
          subst he
          split
          · exact hs.2
          · exact List.pairwise_cons.2 ⟨hs.1, hs.2⟩
        · refine List.pairwise_cons.2 ⟨fun c hc => ?_, ih hr⟩
          rcases Memory.mem_write hc with ⟨rfl, -⟩ | hc
          · show k < a
            omega
          · exact hs.1 c hc
  · rcases Memory.mem_write hc with ⟨rfl, hb⟩ | hc
    · exact hb
    · exact hm.2 c hc

/-- A write inside the storage keeps every listed slot inside it. -/
theorem Memory.bounded_write {m : Memory} {n a : Nat} (hm : ∀ c ∈ m, c.1 < n) (ha : a < n) (b : Byte) :
    ∀ c ∈ Memory.write m a b, c.1 < n := by
  intro c hc
  rcases Memory.mem_write hc with ⟨rfl, -⟩ | hc
  · exact ha
  · exact hm c hc

/-- Reset memory is in canonical form. -/
theorem State.resetWith_store_wf (c : Config) : Memory.wf (State.resetWith c).store := Memory.wf_nil

end Sys2Proof.Machine
end

