-- ==== Sys2Proof/Laws/Ring.lean ====
section
/-! SUPPORT. The ring's shared operations, each with one lemma that says everything it does from a state with the
pointer invariant (spec/10_state.md R27 to R29, spec/43_ringbuffer.md R150, R153, R155, R156). -/

namespace Sys2Proof.Machine

/-! ### Modular positions -/

/-- One wrap is enough for positions up to the capacity. -/
theorem mod_of_wrap {h k c : Nat} (hh : h < c) (hk : k ≤ c) : (h + k) % c = if h + k < c then h + k else h + k - c := by
  split
  · next hlt => exact Nat.mod_eq_of_lt hlt
  · next hge =>
    rw [Nat.mod_eq_sub_mod (by omega)]
    exact Nat.mod_eq_of_lt (by omega)

theorem phys_lt {s : State} (h : 1 ≤ s.cfg.cap) (k : Nat) : phys s k < s.cfg.cap := Nat.mod_lt _ (by omega)

theorem phys_eq {s : State} (h : PointersOk s) {k : Nat} (hk : k ≤ s.cfg.cap) :
    phys s k = if s.head.toNat + k < s.cfg.cap then s.head.toNat + k else s.head.toNat + k - s.cfg.cap :=
  mod_of_wrap h.2.2.1 hk

/-- Different logical positions are different slots. -/
theorem phys_inj {s : State} (h : PointersOk s) {k j : Nat} (hk : k < s.cfg.cap) (hj : j < s.cfg.cap)
    (e : phys s k = phys s j) : k = j := by
  rw [phys_eq h hk.le, phys_eq h hj.le] at e
  split at e <;> split at e <;> omega

theorem phys_zero {s : State} (h : PointersOk s) : phys s 0 = s.head.toNat := by
  rw [phys_eq h (by omega), if_pos (by have := h.2.2.1; omega)]
  rfl

theorem tail_eq_phys {s : State} (h : PointersOk s) : s.tail.toNat = phys s s.size.toNat := h.2.2.2.2

theorem tail_lt {s : State} (h : PointersOk s) : s.tail.toNat < s.cfg.cap := by
  rw [tail_eq_phys h]
  exact phys_lt h.1 _

/-- A wrap of the position itself. -/
theorem phys_add_cap (s : State) (k : Nat) : phys s (k + s.cfg.cap) = phys s k := by
  unfold phys
  rw [← Nat.add_assoc, Nat.add_mod_right]

/-! ### Contents -/

@[simp] theorem contents_length (s : State) : (contents s).length = s.size.toNat := by simp [contents]

theorem contents_getElem {s : State} {k : Nat} (h : k < (contents s).length) :
    (contents s)[k] = Memory.read s.store (phys s k) := by simp [contents]

theorem contents_getElem? (s : State) (k : Nat) :
    (contents s)[k]? = if k < s.size.toNat then some (Memory.read s.store (phys s k)) else none := by
  split
  · next h => rw [List.getElem?_eq_getElem (by simpa using h), contents_getElem]
  · next h => exact List.getElem?_eq_none (by simpa using h)

/-- The contents depend on the ring's state alone. -/
theorem contents_congr {s t : State} (hc : t.cfg = s.cfg) (hm : t.store = s.store) (hh : t.head = s.head)
    (hs : t.size = s.size) : contents t = contents s := by
  unfold contents phys
  rw [hc, hm, hh, hs]

theorem contents_eq_nil {s : State} (h : s.size.toNat = 0) : contents s = [] := by
  apply List.eq_nil_of_length_eq_zero
  simpa using h

/-! ### Slot access -/

theorem readSlot_of_lt {s : State} {i : Nat} (h : i < s.cfg.cap) : readSlot s i = some (Memory.read s.store i) :=
  if_pos h

theorem writeSlot_of_lt {s : State} {i : Nat} (b : Byte) (h : i < s.cfg.cap) :
    writeSlot i b s = some { s with store := Memory.write s.store i b } := if_pos h

/-! ### Enqueue (R150) -/

/-- The state after a byte is stored. -/
def stored (b : Byte) (s : State) : State :=
  { s with store := Memory.write s.store s.tail.toNat b, tail := nextIndex s s.tail, size := half (s.size.toNat + 1) }

theorem enqueue_full {s : State} (b : Byte) (h : s.size.toNat = s.cfg.cap) : enqueue b s = some (false, s) := if_pos h

theorem enqueue_stores {s : State} (b : Byte) (hp : PointersOk s) (h : s.size.toNat < s.cfg.cap) :
    enqueue b s = some (true, stored b s) := by
  unfold enqueue
  rw [if_neg (by omega), writeSlot_of_lt b (tail_lt hp)]
  rfl

theorem stored_size {s : State} (b : Byte) (hp : PointersOk s) (h : s.size.toNat < s.cfg.cap) :
    (stored b s).size.toNat = s.size.toNat + 1 := half_toNat (by have := hp.2.1; omega)

theorem stored_pointersOk {s : State} (b : Byte) (hp : PointersOk s) (h : s.size.toNat < s.cfg.cap) :
    PointersOk (stored b s) := by
  have hs := stored_size b hp h
  obtain ⟨h1, h2, h3, h4, h5⟩ := hp
  refine ⟨h1, h2, h3, ?_, ?_⟩
  · rw [hs]
    exact h
  · rw [hs]
    show (half ((s.tail.toNat + 1) % s.cfg.cap)).toNat = (s.head.toNat + (s.size.toNat + 1)) % s.cfg.cap
    rw [half_toNat (by have := Nat.mod_lt (s.tail.toNat + 1) (show 0 < s.cfg.cap by omega); omega), h5,
      Nat.mod_add_mod, Nat.add_assoc]

theorem stored_storeOk {s : State} (b : Byte) (hp : PointersOk s) (h : StoreOk s) : StoreOk (stored b s) :=
  ⟨Memory.wf_write h.1 _ _, Memory.bounded_write h.2 (tail_lt hp) _⟩

theorem stored_freeSlotsZero {s : State} (b : Byte) (hp : PointersOk s) (hlt : s.size.toNat < s.cfg.cap)
    (h : FreeSlotsZero s) : FreeSlotsZero (stored b s) := by
  intro k hk hsk
  rw [stored_size b hp hlt] at hsk
  show Memory.read (Memory.write s.store s.tail.toNat b) (phys s k) = 0
  rw [Memory.read_write_other]
  · exact h k hk (by omega)
  · rw [tail_eq_phys hp]
    intro e
    have := phys_inj hp hk hlt e
    omega

theorem stored_contents {s : State} (b : Byte) (hp : PointersOk s) (hm : Memory.wf s.store)
    (h : s.size.toNat < s.cfg.cap) : contents (stored b s) = contents s ++ [b] := by
  have hs := stored_size b hp h
  apply List.ext_getElem
  · simp [hs]
  · intro k h1 h2
    rw [contents_getElem]
    show Memory.read (Memory.write s.store s.tail.toNat b) (phys s k) = _
    rw [contents_length, hs] at h1
    rw [tail_eq_phys hp, Memory.read_write hm]
    by_cases hk : k = s.size.toNat
    · subst hk
      simp
    · have hlt : k < s.size.toNat := by omega
      rw [if_neg fun e => hk (phys_inj hp (by omega) h e), List.getElem_append_left (by simpa using hlt),
        contents_getElem]

/-- Everything the enqueue of R150 can do from a state with the pointer invariant. -/
theorem enqueue_cases {s : State} (b : Byte) (hp : PointersOk s) :
    (s.size.toNat = s.cfg.cap ∧ enqueue b s = some (false, s)) ∨
      (s.size.toNat < s.cfg.cap ∧ enqueue b s = some (true, stored b s)) := by
  rcases Nat.lt_or_ge s.size.toNat s.cfg.cap with h | h
  · exact .inr ⟨h, enqueue_stores b hp h⟩
  · have := hp.2.2.2.1
    exact .inl ⟨by omega, enqueue_full b (by omega)⟩

/-! ### EnqueueSequence (R153) -/

/-- Everything R153's loop does from a state with the pointer invariant: it accepts what fits, appends it to the contents,
and writes no other slot and no other field. -/
theorem enqueueAll_spec (d : List Byte) : ∀ {s : State}, PointersOk s → StoreOk s →
    ∃ t, enqueueAll d s = some (min d.length (s.cfg.cap - s.size.toNat), t) ∧ PointersOk t ∧ StoreOk t ∧
      (FreeSlotsZero s → FreeSlotsZero t) ∧
      contents t = contents s ++ d.take (s.cfg.cap - s.size.toNat) ∧
      t = { s with store := t.store, tail := t.tail, size := t.size } ∧
      t.size.toNat = s.size.toNat + min d.length (s.cfg.cap - s.size.toNat) ∧
      ∀ a, (∀ k, k < min d.length (s.cfg.cap - s.size.toNat) → a ≠ phys s (s.size.toNat + k)) →
        Memory.read t.store a = Memory.read s.store a := by
  induction d with
  | nil =>
    intro s hp hs
    exact ⟨s, by simp [enqueueAll], hp, hs, id, by simp, rfl, by simp, fun _ _ => rfl⟩
  | cons b r ih =>
    intro s hp hs
    rcases enqueue_cases b hp with ⟨hfull, he⟩ | ⟨hlt, he⟩
    · refine ⟨s, ?_, hp, hs, id, ?_, rfl, ?_, fun _ _ => rfl⟩
      · simp [enqueueAll, he, hfull]
      · simp [hfull]
      · simp [hfull]
    · have hsz := stored_size b hp hlt
      obtain ⟨t, h1, h2, h3, h4, h5, h6, h7, h8⟩ := ih (stored_pointersOk b hp hlt) (stored_storeOk b hp hs)
      have hcap : (stored b s).cfg = s.cfg := rfl
      rw [hsz, hcap] at h1 h5 h7 h8
      have hmin : min r.length (s.cfg.cap - (s.size.toNat + 1)) + 1 =
          min (b :: r).length (s.cfg.cap - s.size.toNat) := by simp; omega
      refine ⟨t, ?_, h2, h3, fun hf => h4 (stored_freeSlotsZero b hp hlt hf), ?_, ?_, ?_, ?_⟩
      · simp only [enqueueAll, he, h1]
        rw [hmin]
      · rw [h5, stored_contents b hp hs.1 hlt]
        obtain ⟨n, hn⟩ : ∃ n, s.cfg.cap - s.size.toNat = n + 1 := ⟨s.cfg.cap - s.size.toNat - 1, by omega⟩
        rw [hn, show s.cfg.cap - (s.size.toNat + 1) = n by omega]
        simp
      · exact h6
      · rw [h7]
        omega
      · intro a ha
        rw [h8 a, stored]
        · apply Memory.read_write_other
          have := ha 0 (by omega)
          rwa [Nat.add_zero, ← tail_eq_phys hp] at this
        · intro k hk
          have := ha (k + 1) (by omega)
          rwa [show s.size.toNat + (k + 1) = s.size.toNat + 1 + k by omega] at this

/-! ### Copying and zeroing runs of slots (R155, R156) -/

theorem readRun_spec {s : State} (h : 1 ≤ s.cfg.cap) (n : Nat) : ∀ k,
    readRun s k n = some ((List.range n).map fun j => Memory.read s.store (phys s (k + j))) := by
  induction n with
  | zero => intro k; rfl
  | succ n ih =>
    intro k
    rw [readRun, readSlot_of_lt (phys_lt h k), ih (k + 1), List.range_succ_eq_map]
    simp only [List.map_cons, List.map_map, Nat.add_zero]
    congr 3
    funext j
    show _ = Memory.read s.store (phys s (k + (j + 1)))
    rw [show k + (j + 1) = k + 1 + j by omega]

theorem zeroRun_spec (n : Nat) : ∀ (k : Nat) {s : State}, 1 ≤ s.cfg.cap → StoreOk s →
    ∃ m, zeroRun k n s = some { s with store := m } ∧ StoreOk { s with store := m } ∧
      ∀ a, Memory.read m a = if ∃ j, j < n ∧ a = phys s (k + j) then 0 else Memory.read s.store a := by
  induction n with
  | zero => intro k s _ hs; exact ⟨s.store, rfl, hs, fun a => by simp⟩
  | succ n ih =>
    intro k s hc hs
    have hw : StoreOk { s with store := Memory.write s.store (phys s k) 0 } :=
      ⟨Memory.wf_write hs.1 _ _, Memory.bounded_write hs.2 (phys_lt hc k) _⟩
    obtain ⟨m, h1, h2, h3⟩ := ih (k + 1) (s := { s with store := Memory.write s.store (phys s k) 0 }) hc hw
    refine ⟨m, ?_, h2, fun a => ?_⟩
    · rw [zeroRun, writeSlot_of_lt _ (phys_lt hc k)]
      exact h1
    · rw [h3 a]
      show (if ∃ j, j < n ∧ a = phys s (k + 1 + j) then (0 : Byte)
        else Memory.read (Memory.write s.store (phys s k) 0) a) = _
      rw [Memory.read_write hs.1]
      by_cases h : ∃ j, j < n ∧ a = phys s (k + 1 + j)
      · obtain ⟨j, hj, e⟩ := h
        rw [if_pos ⟨j, hj, e⟩, if_pos ⟨j + 1, by omega, by rw [e]; congr 1; omega⟩]
      · rw [if_neg h]
        by_cases h0 : a = phys s k
        · rw [if_pos h0, if_pos ⟨0, by omega, by rw [h0]; rfl⟩]
        · rw [if_neg h0, if_neg]
          rintro ⟨j, hj, e⟩
          rcases j with _ | j
          · exact h0 e
          · exact h ⟨j, by omega, by rw [e]; congr 1; omega⟩

/-! ### Dropping the oldest bytes (R152, R156) -/

/-- The ring after its `n` oldest bytes are removed and their slots zeroed, given the zeroed storage. -/
def dropped (n : Nat) (m : Memory) (s : State) : State :=
  { s with store := m, head := half (phys s n), size := half (s.size.toNat - n) }

theorem dropped_size {s : State} (n : Nat) (m : Memory) : (dropped n m s).size.toNat = s.size.toNat - n := by
  have := s.size.isLt
  exact half_toNat (by omega)

theorem dropped_head {s : State} (hp : PointersOk s) (n : Nat) (m : Memory) :
    (dropped n m s).head.toNat = phys s n :=
  half_toNat (by have := phys_lt hp.1 n; have := hp.2.1; omega)

/-- A logical position after the drop is the old one `n` further on. -/
theorem dropped_phys {s : State} (hp : PointersOk s) (n : Nat) (m : Memory) (k : Nat) :
    phys (dropped n m s) k = phys s (n + k) := by
  show ((dropped n m s).head.toNat + k) % s.cfg.cap = _
  rw [dropped_head hp]
  unfold phys
  rw [Nat.mod_add_mod, Nat.add_assoc]

theorem dropped_pointersOk {s : State} (hp : PointersOk s) {n : Nat} (hn : n ≤ s.size.toNat) (m : Memory) :
    PointersOk (dropped n m s) := by
  refine ⟨hp.1, hp.2.1, ?_, ?_, ?_⟩
  · rw [dropped_head hp]
    exact phys_lt hp.1 n
  · rw [dropped_size]
    have := hp.2.2.2.1
    show _ ≤ s.cfg.cap
    omega
  · show s.tail.toNat = phys (dropped n m s) (dropped n m s).size.toNat
    rw [dropped_phys hp, dropped_size, tail_eq_phys hp, Nat.add_sub_cancel' hn]

/-- With the removed slots zeroed and no other slot written, the contents lose their `n` oldest bytes. -/
theorem dropped_contents {s : State} (hp : PointersOk s) {n : Nat} (hn : n ≤ s.size.toNat) {m : Memory}
    (hm : ∀ a, (∀ j, j < n → a ≠ phys s j) → Memory.read m a = Memory.read s.store a) :
    contents (dropped n m s) = (contents s).drop n := by
  apply List.ext_getElem
  · simp [dropped_size]
  · intro k h1 h2
    rw [contents_length, dropped_size] at h1
    rw [contents_getElem, List.getElem_drop, contents_getElem, dropped_phys hp]
    apply hm
    intro j hj e
    have := hp.2.2.2.1
    have := phys_inj hp (by omega) (by omega) e
    omega

theorem dropped_freeSlotsZero {s : State} (hp : PointersOk s) {n : Nat} (hn : n ≤ s.size.toNat) {m : Memory}
    (hz : ∀ j, j < n → Memory.read m (phys s j) = 0)
    (hm : ∀ a, (∀ j, j < n → a ≠ phys s j) → Memory.read m a = Memory.read s.store a) (hf : FreeSlotsZero s) :
    FreeSlotsZero (dropped n m s) := by
  intro k hk hsk
  rw [dropped_size] at hsk
  rw [dropped_phys hp]
  have hk' : k < s.cfg.cap := hk
  show Memory.read m (phys s (n + k)) = 0
  rcases Nat.lt_or_ge (n + k) s.cfg.cap with h | h
  · rw [hm]
    · exact hf (n + k) h (by omega)
    · intro j hj e
      have := hp.2.2.2.1
      have := phys_inj hp h (by omega) e
      omega
  · rw [show n + k = (n + k - s.cfg.cap) + s.cfg.cap by omega, phys_add_cap]
    exact hz _ (by omega)

/-! ### RB.DEQ and RB.CLEAR as drops -/

/-- Everything RB.DEQ can do from a state with the ring's invariants (R152). -/
theorem execRbDeq_cases {s : State} (hp : PointersOk s) (hs : StoreOk s) :
    (s.size.toNat = 0 ∧ execRbDeq s = .next (fail .bufferUnderrun s)) ∨
      (0 < s.size.toNat ∧ ∃ m,
        execRbDeq s = .next (finish .ok (zext16 (Memory.read s.store s.head.toNat)) [] (dropped 1 m s)) ∧
        StoreOk { s with store := m } ∧ Memory.read m (phys s 0) = 0 ∧
        ∀ a, a ≠ phys s 0 → Memory.read m a = Memory.read s.store a) := by
  rcases Nat.eq_zero_or_pos s.size.toNat with h | h
  · refine .inl ⟨h, ?_⟩
    unfold execRbDeq ringEmpty
    rw [if_pos (by simpa using h)]
  · refine .inr ⟨h, Memory.write s.store s.head.toNat 0, ?_, ?_, ?_, fun a ha => ?_⟩
    · unfold execRbDeq ringEmpty
      rw [if_neg (by simp; omega), readSlot_of_lt hp.2.2.1, writeSlot_of_lt _ hp.2.2.1]
      rfl
    · exact ⟨Memory.wf_write hs.1 _ _, Memory.bounded_write hs.2 hp.2.2.1 _⟩
    · rw [phys_zero hp]
      exact Memory.read_write_same hs.1 _ _
    · rw [phys_zero hp] at ha
      exact Memory.read_write_other _ _ ha

theorem clearCount_eq_min (upto : Half) (s : State) : clearCount upto s = min s.size.toNat upto.toNat := by
  unfold clearCount
  split <;> omega

/-- Everything RB.CLEAR can do from a state with the ring's invariants (R156). -/
theorem execRbClear_spec {s : State} (upto : Half) (hp : PointersOk s) (hs : StoreOk s) :
    ∃ m, execRbClear upto s = .next (finish .ok
        (if s.size.toNat ≤ upto.toNat ∧ clrcntCapacity s = true then half s.cfg.cap else half (clearCount upto s)) []
        (dropped (clearCount upto s) m s)) ∧
      StoreOk { s with store := m } ∧ (∀ j, j < clearCount upto s → Memory.read m (phys s j) = 0) ∧
      ∀ a, (∀ j, j < clearCount upto s → a ≠ phys s j) → Memory.read m a = Memory.read s.store a := by
  obtain ⟨m, h1, h2, h3⟩ := zeroRun_spec (clearCount upto s) 0 hp.1 hs
  simp only [Nat.zero_add] at h3
  refine ⟨m, ?_, h2, fun j hj => ?_, fun a ha => ?_⟩
  · unfold execRbClear
    rw [h1]
    rfl
  · rw [h3, if_pos ⟨j, hj, rfl⟩]
  · rw [h3, if_neg]
    rintro ⟨j, hj, e⟩
    exact ha j hj e

end Sys2Proof.Machine
end

