-- ==== Sys2Proof/Laws/Exec.lean ====
section
/-! SUPPORT. What the meanings leave unchanged, said once: the commands that do not write the ring, and the ring's reading
commands, which complete from every state with the pointer invariant (spec/10_state.md R41, spec/43_ringbuffer.md). -/

namespace Sys2Proof.Machine

/-- The commands that can write HEAD, TAIL, SIZE or STORE (R41). -/
def writesRing : Instr → Bool
  | .reset => true
  | .rbEnq _ => true
  | .rbDeq => true
  | .rbEnqseq _ => true
  | .rbClear _ => true
  | _ => false

/-- The ring's registers of one state are those of another, and so are its parameters. -/
def SameRing (s t : State) : Prop :=
  t.cfg = s.cfg ∧ t.store = s.store ∧ t.head = s.head ∧ t.tail = s.tail ∧ t.size = s.size

theorem orNoSuchSlot_next {o : Option State} {t : State} (h : orNoSuchSlot o = .next t) : o = some t := by
  cases o with
  | none => cases h
  | some u => cases h; rfl

/-- What RB.PEEK answers, whatever it is, is a response and nothing else. -/
theorem execRbPeek_next {off : Half} {s t : State} (h : execRbPeek off s = .next t) :
    ∃ st res, t = finish st res [] s := by
  unfold execRbPeek at h
  split at h
  · cases h
    exact ⟨_, _, rfl⟩
  · split at h
    · cases h
      exact ⟨_, _, rfl⟩
    · obtain ⟨b, -, rfl⟩ := Option.map_eq_some_iff.1 (orNoSuchSlot_next h)
      exact ⟨_, _, rfl⟩

/-- What RB.COPY answers, whatever it is, is a response and nothing else. -/
theorem execRbCopy_next {start : Half} {s t : State} (h : execRbCopy start s = .next t) :
    ∃ st res tl, t = finish st res tl s := by
  unfold execRbCopy at h
  split at h
  · cases h
    exact ⟨_, _, _, rfl⟩
  · split at h
    · cases h
      exact ⟨_, _, _, rfl⟩
    · obtain ⟨b, -, rfl⟩ := Option.map_eq_some_iff.1 (orNoSuchSlot_next h)
      exact ⟨_, _, _, rfl⟩

/-- SEND and RECV answer a response and nothing else (R138). -/
theorem execSend_next (addr : Half) (p : List Byte) (s : State) :
    ∃ st res tl, execSend addr p s = .next (finish st res tl s) := by
  unfold execSend
  split
  · exact ⟨_, _, _, rfl⟩
  · exact ⟨_, _, _, rfl⟩

theorem execRecv_next (w : List Byte) (s : State) : ∃ st res tl, execRecv w s = .next (finish st res tl s) := by
  unfold execRecv
  split
  · exact ⟨_, _, _, rfl⟩
  · exact ⟨_, _, _, rfl⟩

/-- A command that does not write the ring leaves it as it was. -/
theorem exec_sameRing {i : Instr} {s t : State} (hi : writesRing i = false) (h : exec i s = .next t) : SameRing s t := by
  cases i <;> simp only [writesRing, Bool.true_eq_false] at hi
  case escPut b =>
    change execEscPut b s = _ at h
    unfold execEscPut at h
    split at h <;> cases h <;> exact ⟨rfl, rfl, rfl, rfl, rfl⟩
  case unePut b =>
    change execUnePut b s = _ at h
    unfold execUnePut at h
    split at h
    · cases h; exact ⟨rfl, rfl, rfl, rfl, rfl⟩
    · split at h <;> cases h <;> exact ⟨rfl, rfl, rfl, rfl, rfl⟩
    · cases h; exact ⟨rfl, rfl, rfl, rfl, rfl⟩
  case uneEnd =>
    change execUneEnd s = _ at h
    unfold execUneEnd at h
    split at h <;> cases h <;> exact ⟨rfl, rfl, rfl, rfl, rfl⟩
  case ckTest =>
    change execCkTest s = _ at h
    unfold execCkTest at h
    split at h <;> cases h <;> exact ⟨rfl, rfl, rfl, rfl, rfl⟩
  case send addr p =>
    obtain ⟨_, _, _, e⟩ := execSend_next addr p s
    rw [show exec (.send addr p) s = execSend addr p s from rfl, e] at h
    cases h
    exact ⟨rfl, rfl, rfl, rfl, rfl⟩
  case recv w =>
    obtain ⟨_, _, _, e⟩ := execRecv_next w s
    rw [show exec (.recv w) s = execRecv w s from rfl, e] at h
    cases h
    exact ⟨rfl, rfl, rfl, rfl, rfl⟩
  case rbPeek off =>
    obtain ⟨_, _, rfl⟩ := execRbPeek_next h
    exact ⟨rfl, rfl, rfl, rfl, rfl⟩
  case rbCopy start =>
    obtain ⟨_, _, _, rfl⟩ := execRbCopy_next h
    exact ⟨rfl, rfl, rfl, rfl, rfl⟩
  all_goals
    cases h
    exact ⟨rfl, rfl, rfl, rfl, rfl⟩

/-- The ring's invariants and contents depend on the ring's registers alone. -/
theorem SameRing.pointersOk {s t : State} (h : SameRing s t) (hp : PointersOk s) : PointersOk t := by
  obtain ⟨h1, -, h3, h4, h5⟩ := h
  unfold PointersOk
  rw [h1, h3, h4, h5]
  exact hp

theorem SameRing.storeOk {s t : State} (h : SameRing s t) (hs : StoreOk s) : StoreOk t := by
  obtain ⟨h1, h2, -⟩ := h
  unfold StoreOk
  rw [h1, h2]
  exact hs

theorem SameRing.freeSlotsZero {s t : State} (h : SameRing s t) (hf : FreeSlotsZero s) : FreeSlotsZero t := by
  obtain ⟨h1, h2, h3, -, h5⟩ := h
  unfold FreeSlotsZero phys
  rw [h1, h2, h3, h5]
  exact hf

theorem SameRing.contents {s t : State} (h : SameRing s t) : contents t = contents s :=
  contents_congr h.1 h.2.1 h.2.2.1 h.2.2.2.2

end Sys2Proof.Machine
end

