-- ==== Sys2Proof/Laws/PerInstr.lean ====
section
/-! SUPPORT. A law made per instruction: the bytes of a well-formed command are as many as the command length rule reads
from their front, whatever follows them (spec/30_encoding.md R84). -/

namespace Sys2Proof.Laws.EncodeLength

open Sys2Proof.Machine

/-- The command length rule agrees with the encoder on this instruction. -/
def Statement (i : Instr) : Prop :=
  i.wellFormed = true → ∀ rest, (encode i).length = commandLength (encode i ++ rest)

theorem nop : Statement .nop := fun _ _ => rfl

theorem reset : Statement .reset := fun _ _ => rfl

theorem rdctrl : Statement .rdctrl := fun _ _ => rfl

theorem wrctrl (a : Byte) : Statement (.wrctrl a) := fun _ _ => rfl

theorem rdstat : Statement .rdstat := fun _ _ => rfl

theorem escInit : Statement .escInit := fun _ _ => rfl

theorem escPut (b : Byte) : Statement (.escPut b) := fun _ _ => rfl

theorem uneInit : Statement .uneInit := fun _ _ => rfl

theorem unePut (b : Byte) : Statement (.unePut b) := fun _ _ => rfl

theorem uneEnd : Statement .uneEnd := fun _ _ => rfl

theorem ckInit : Statement .ckInit := fun _ _ => rfl

theorem ckAdd (b : Byte) : Statement (.ckAdd b) := fun _ _ => rfl

theorem ckGet : Statement .ckGet := fun _ _ => rfl

theorem ckRaw : Statement .ckRaw := fun _ _ => rfl

theorem ckTest : Statement .ckTest := fun _ _ => rfl

theorem rbEnq (b : Byte) : Statement (.rbEnq b) := fun _ _ => rfl

theorem rbDeq : Statement .rbDeq := fun _ _ => rfl

theorem rbPeek (off : Half) : Statement (.rbPeek off) := fun _ _ => rfl

theorem rbCopy (start : Half) : Statement (.rbCopy start) := fun _ _ => rfl

theorem rbClear (upto : Half) : Statement (.rbClear upto) := fun _ _ => rfl

theorem rbSize : Statement .rbSize := fun _ _ => rfl

theorem rbHead : Statement .rbHead := fun _ _ => rfl

theorem rbTail : Statement .rbTail := fun _ _ => rfl

theorem rbEmpty : Statement .rbEmpty := fun _ _ => rfl

theorem rbFull : Statement .rbFull := fun _ _ => rfl

theorem send (addr : Half) (p : List Byte) : Statement (.send addr p) := by
  intro hw rest
  have hw : p.length ≤ 255 := by simpa [Instr.wellFormed] using hw
  show _ = 4 + (BitVec.ofNat 8 p.length).toNat
  simp [encode]
  omega

theorem recv (d : List Byte) : Statement (.recv d) := by
  intro hw rest
  have hw : d.length ≤ 65535 := by simpa [Instr.wellFormed] using hw
  show _ = 3 + (be16 (hiByte (BitVec.ofNat 16 d.length)) (loByte (BitVec.ofNat 16 d.length))).toNat
  simp [encode]
  omega

theorem rbEnqseq (d : List Byte) : Statement (.rbEnqseq d) := by
  intro hw rest
  have hw : d.length ≤ 65535 := by simpa [Instr.wellFormed] using hw
  show _ = 3 + (be16 (hiByte (BitVec.ofNat 16 d.length)) (loByte (BitVec.ofNat 16 d.length))).toNat
  simp [encode]
  omega

end Sys2Proof.Laws.EncodeLength
end

