-- ==== Sys2Proof/Laws/Run.lean ====
section
/-! SUPPORT. Runs of steps: two runs, one after the other, are one, and the host's `Host.Core.run` of this machine is
`stepRun`. -/

namespace Sys2Proof.Machine

theorem stepRun_zero (s : State) : stepRun 0 s = .next s := rfl

theorem stepRun_succ (k : Nat) (s : State) : stepRun (k + 1) s =
    match step s with
    | .next t => stepRun k t
    | .fault f => .fault f
    | .refused f => .refused f := rfl

theorem stepRun_add (k l : Nat) : ∀ s : State, stepRun (k + l) s =
    match stepRun k s with
    | .next t => stepRun l t
    | .fault f => .fault f
    | .refused f => .refused f := by
  induction k with
  | zero =>
    intro s
    rw [Nat.zero_add]
    rfl
  | succ k ih =>
    intro s
    rw [Nat.add_right_comm, stepRun_succ, stepRun_succ]
    cases step s with
    | next t => exact ih t
    | fault f => rfl
    | refused f => rfl

theorem stepRun_one (s : State) : stepRun 1 s = step s := by
  rw [stepRun_succ]
  cases step s <;> rfl

theorem core_run_eq_stepRun (k : Nat) : ∀ s : State, Host.Core.run Sys2Proof.core k s = stepRun k s := by
  induction k with
  | zero => intro s; rfl
  | succ k ih =>
    intro s
    rw [stepRun_succ]
    cases h : step s with
    | next t =>
      have h' : Sys2Proof.core.step s = .next t := h
      simp only [Host.Core.run, h']
      exact ih t
    | fault f =>
      have h' : Sys2Proof.core.step s = .fault f := h
      simp only [Host.Core.run, h']
      rfl
    | refused f =>
      have h' : Sys2Proof.core.step s = .refused f := h
      simp only [Host.Core.run, h']
      rfl

end Sys2Proof.Machine
end

