-- ==== Sys2Proof/Laws/Step.lean ====
section
/-! SUPPORT. What `step` is, event by event, so that no later proof unfolds it; what the looping operations and a push can
write; and that a meaning neither reads nor writes the events still to come. -/

namespace Sys2Proof.Machine

/-! ### A step, by the next event -/

theorem step_idle {s : State} (hl : s.cfg.Legal) (hi : s.inputs = []) : step s = .next s := by
  unfold step nextEvent
  rw [if_pos hl, hi]

theorem step_event {s : State} {e : PortEvent} {es : List PortEvent} (hl : s.cfg.Legal) (hi : s.inputs = e :: es) :
    step s = deliver e { s with inputs := es } := by
  unfold step nextEvent
  rw [if_pos hl, hi]

theorem step_cmdByte {s : State} {b : Byte} {es : List PortEvent} (hl : s.cfg.Legal) (hi : s.inputs = .cmdByte b :: es) :
    step s = runParsed { s with inputs := es, cpb := s.cpb ++ [b] } := step_event hl hi

theorem step_push {s : State} {b : Byte} {es : List PortEvent} (hl : s.cfg.Legal) (hi : s.inputs = .push b :: es) :
    step s = pushByte b { s with inputs := es } := step_event hl hi

/-! ### What the looping operations and a push can write -/

theorem writeSlot_next {i : Nat} {b : Byte} {s t : State} (h : writeSlot i b s = some t) :
    i < s.cfg.cap ∧ t = { s with store := Memory.write s.store i b } := by
  unfold writeSlot at h
  split at h
  · next hi =>
    cases h
    exact ⟨hi, rfl⟩
  · cases h

theorem enqueue_next {b : Byte} {s t : State} {a : Bool} (h : enqueue b s = some (a, t)) :
    t = { s with store := t.store, tail := t.tail, size := t.size } := by
  unfold enqueue at h
  split at h
  · cases h
    rfl
  · split at h
    · cases h
    · next s1 hs1 =>
      obtain ⟨-, rfl⟩ := writeSlot_next hs1
      cases h
      rfl

theorem enqueueAll_next (d : List Byte) : ∀ {s t : State} {n : Nat}, enqueueAll d s = some (n, t) →
    t = { s with store := t.store, tail := t.tail, size := t.size } := by
  induction d with
  | nil =>
    intro s t n h
    cases h
    rfl
  | cons b r ih =>
    intro s t n h
    unfold enqueueAll at h
    split at h
    · cases h
    · next u hu =>
      cases h
      exact enqueue_next hu
    · next u hu =>
      split at h
      · cases h
      · next m v hv =>
        cases h
        rw [ih hv, enqueue_next hu]

theorem zeroRun_next (n : Nat) : ∀ {k : Nat} {s t : State}, zeroRun k n s = some t → t = { s with store := t.store } := by
  induction n with
  | zero =>
    intro k s t h
    cases h
    rfl
  | succ n ih =>
    intro k s t h
    unfold zeroRun at h
    split at h
    · cases h
    · next s1 hs1 =>
      obtain ⟨-, rfl⟩ := writeSlot_next hs1
      rw [ih h]

theorem pushByte_next {b : Byte} {s t : State} (h : pushByte b s = .next t) :
    t = { s with store := t.store, tail := t.tail, size := t.size, acks := t.acks } := by
  unfold pushByte at h
  split at h
  · cases h
  · next a u hu =>
    cases h
    rw [enqueue_next hu]

/-! ### The events still to come -/

/-- The state with other events still to come. -/
abbrev withInputs (es : List PortEvent) (s : State) : State := { s with inputs := es }

/-- An outcome with its next state changed. -/
def mapNext (f : State → State) (o : Host.Outcome State Fault Refusal) : Host.Outcome State Fault Refusal :=
  match o with
  | .next t => .next (f t)
  | .fault r => .fault r
  | .refused r => .refused r

theorem enqueue_withInputs (es : List PortEvent) (b : Byte) (s : State) :
    enqueue b (withInputs es s) = (enqueue b s).map fun x => (x.1, withInputs es x.2) := by
  unfold enqueue writeSlot
  by_cases h : s.size.toNat = s.cfg.cap
  · simp [h]
  · by_cases h2 : s.tail.toNat < s.cfg.cap
    · simp [h, h2]
      rfl
    · simp [h, h2]

theorem enqueueAll_withInputs (es : List PortEvent) (d : List Byte) : ∀ s : State,
    enqueueAll d (withInputs es s) = (enqueueAll d s).map fun x => (x.1, withInputs es x.2) := by
  induction d with
  | nil => intro s; rfl
  | cons b r ih =>
    intro s
    unfold enqueueAll
    rw [enqueue_withInputs]
    rcases enqueue b s with _ | ⟨a, u⟩
    · rfl
    · cases a
      · rfl
      · simp only [Option.map_some, ih]
        rcases enqueueAll r u with _ | ⟨n, v⟩ <;> rfl

theorem zeroRun_withInputs (es : List PortEvent) (n : Nat) : ∀ (k : Nat) (s : State),
    zeroRun k n (withInputs es s) = (zeroRun k n s).map (withInputs es) := by
  induction n with
  | zero => intro k s; rfl
  | succ n ih =>
    intro k s
    unfold zeroRun writeSlot
    by_cases h : phys s k < s.cfg.cap
    · have h' : phys (withInputs es s) k < s.cfg.cap := h
      simp only [h', h, if_true]
      exact ih (k + 1) { s with store := Memory.write s.store (phys s k) 0 }
    · have h' : ¬phys (withInputs es s) k < s.cfg.cap := h
      simp only [h', h, if_false]
      rfl

theorem readRun_withInputs (es : List PortEvent) (n : Nat) : ∀ (k : Nat) (s : State),
    readRun (withInputs es s) k n = readRun s k n := by
  induction n with
  | zero => intro k s; rfl
  | succ n ih =>
    intro k s
    unfold readRun
    rw [ih]
    rfl

theorem pushByte_withInputs (es : List PortEvent) (b : Byte) (s : State) :
    pushByte b (withInputs es s) = mapNext (withInputs es) (pushByte b s) := by
  unfold pushByte
  rw [enqueue_withInputs]
  rcases enqueue b s with _ | ⟨a, u⟩ <;> rfl

/-- No meaning reads or writes the events still to come (R218). -/
theorem exec_withInputs (es : List PortEvent) (i : Instr) (s : State) :
    exec i (withInputs es s) = mapNext (withInputs es) (exec i s) := by
  cases i
  case escPut b => cases h : s.escSt <;> simp [exec, execEscPut, h, finish_eq, mapNext]
  case unePut b =>
    by_cases hb : b = escByteValue <;> cases h : s.uneSt <;> simp [exec, execUnePut, h, hb, finish_eq, mapNext]
  case uneEnd => cases h : s.uneSt <;> simp [exec, execUneEnd, h, finish_eq, mapNext]
  case ckTest => by_cases h : s.ckAcc = 255#8 <;> simp [exec, execCkTest, h, finish_eq, mapNext]
  case send a p =>
    show execSend a p _ = mapNext _ (execSend a p s)
    unfold execSend
    by_cases h : s.cfg.maxPayload < p.length <;> simp [h] <;> rfl
  case recv w =>
    show (match parseWindow s.cfg.rinSize (lenpolTolerant s) w with
      | .accepted u c => _
      | .rejected st => _) = mapNext _ (execRecv w s)
    unfold execRecv
    cases parseWindow s.cfg.rinSize (lenpolTolerant s) w <;> rfl
  case rbPeek o =>
    show execRbPeek o _ = mapNext _ (execRbPeek o s)
    unfold execRbPeek
    rw [show ringEmpty (withInputs es s) = ringEmpty s from rfl,
      show readSlot (withInputs es s) (phys (withInputs es s) o.toNat) = readSlot s (phys s o.toNat) from rfl]
    split
    · rfl
    · show (if s.size.toNat ≤ o.toNat then _ else _) = _
      split
      · rfl
      · cases readSlot s (phys s o.toNat) <;> rfl
  case rbCopy o =>
    show execRbCopy o _ = mapNext _ (execRbCopy o s)
    unfold execRbCopy
    rw [show ringEmpty (withInputs es s) = ringEmpty s from rfl, readRun_withInputs]
    split
    · rfl
    · show (if s.size.toNat ≤ o.toNat then _ else _) = _
      split
      · rfl
      · show orNoSuchSlot (Option.map _ (readRun s o.toNat s.size.toNat)) = _
        cases readRun s o.toNat s.size.toNat <;> rfl
  case rbClear u =>
    show execRbClear u _ = mapNext _ (execRbClear u s)
    unfold execRbClear
    rw [zeroRun_withInputs]
    show orNoSuchSlot (Option.map _ (Option.map _ (zeroRun 0 (clearCount u s) s))) = _
    cases zeroRun 0 (clearCount u s) s <;> rfl
  case rbEnqseq d =>
    show execRbEnqseq d _ = mapNext _ (execRbEnqseq d s)
    unfold execRbEnqseq
    rw [enqueueAll_withInputs]
    rcases enqueueAll d s with _ | ⟨n, t⟩
    · rfl
    · simp only [Option.map_some]
      split <;> rfl
  case rbEnq b =>
    show execRbEnq b _ = mapNext _ (execRbEnq b s)
    unfold execRbEnq
    rw [enqueue_withInputs]
    rcases enqueue b s with _ | ⟨a, u⟩
    · rfl
    · cases a <;> rfl
  case rbDeq =>
    show execRbDeq _ = mapNext _ (execRbDeq s)
    unfold execRbDeq
    rw [show ringEmpty (withInputs es s) = ringEmpty s from rfl]
    unfold readSlot writeSlot
    by_cases h : ringEmpty s = true
    · simp [h]
      rfl
    · by_cases h2 : s.head.toNat < s.cfg.cap
      · simp [h, h2]
        rfl
      · simp [h, h2]
        rfl
  all_goals rfl

end Sys2Proof.Machine
end

