-- ==== Sys2Proof/Tests/Slice0.lean ====
section
/-! SUPPORT. The model's own tests. Words and expected results are written out from the spec: encodings from
spec/30_encoding.md R81 to R85, results from the vectors of spec/95_test_vectors.md (their ids stand beside them) and the
examples in the rules. Then, for every statement with hypotheses, concrete values that meet them, clause by clause. -/

set_option maxRecDepth 20000

namespace Sys2Proof.Tests

open Sys2Proof Sys2Proof.Machine

/-! ### Helpers -/

/-- The next state, where there is one. -/
def after (o : Host.Outcome State Fault Refusal) : Option State :=
  match o with
  | .next t => some t
  | .fault _ => none
  | .refused _ => none

/-- The response queue after a command, where it completes. -/
def answer (i : Instr) (s : State) : Option (List Byte) := (after (exec i s)).map fun t => t.rspq

/-- A block with CAP = 4, SCRATCH_SIZE = 9 and RIN_SIZE = 17, the smallest of R8 but for CAP. -/
def small : Config := ⟨4, 9, 17⟩

/-- A block with a ring in a given state. -/
def ringState (c : Config) (m : Memory) (h t z : Half) : State :=
  { State.resetWith c with store := m, head := h, tail := t, size := z }

/-- The full ring of spec/95_test_vectors.md 2.5, CAP = 4: HEAD = TAIL = 2, SIZE = 4, STORE = [05 06 03 04]. -/
def full4 : State := ringState small [(0, 5), (1, 6), (2, 3), (3, 4)] 2 2 4

/-- A ring with HEAD = 3, TAIL = 1, SIZE = 2 and contents [0A 0B], wrapped around the end of STORE. -/
def part4 : State := ringState small [(0, 0x0B), (3, 0x0A)] 3 1 2

/-- An empty ring with HEAD = TAIL = 3. -/
def empty4 : State := ringState small [] 3 3 0

/-- The wire frame W1 of spec/95_test_vectors.md 2.4. -/
def w1 : List Byte := [0x7E, 0x00, 0x07, 0x01, 0x00, 0x12, 0x34, 0x01, 0x41, 0x42, 0x34]

/-! ### Well-formedness: an ill-formed term for each check -/

theorem test_wellFormed_send_255 : (Instr.send 0 (List.replicate 255 0)).wellFormed = true := by
  simp [Instr.wellFormed]

theorem test_wellFormed_send_256_refused : (Instr.send 0 (List.replicate 256 0)).wellFormed = false := by
  simp [Instr.wellFormed]

theorem test_wellFormed_recv_65535 : (Instr.recv (List.replicate 65535 0)).wellFormed = true := by
  show decide ((List.replicate 65535 (0 : Byte)).length ≤ 65535) = true
  rw [List.length_replicate]
  rfl

theorem test_wellFormed_recv_65536_refused : (Instr.recv (List.replicate 65536 0)).wellFormed = false := by
  show decide ((List.replicate 65536 (0 : Byte)).length ≤ 65535) = false
  rw [List.length_replicate]
  rfl

theorem test_wellFormed_rbEnqseq_65535 : (Instr.rbEnqseq (List.replicate 65535 0)).wellFormed = true := by
  show decide ((List.replicate 65535 (0 : Byte)).length ≤ 65535) = true
  rw [List.length_replicate]
  rfl

theorem test_wellFormed_rbEnqseq_65536_refused : (Instr.rbEnqseq (List.replicate 65536 0)).wellFormed = false := by
  show decide ((List.replicate 65536 (0 : Byte)).length ≤ 65535) = false
  rw [List.length_replicate]
  rfl

/-! ### Decoding: every constructor from a word of R83 -/

theorem test_decode_nop : decode [0x00] = .cmd .nop [] := by decide
theorem test_decode_reset : decode [0x01] = .cmd .reset [] := by decide
theorem test_decode_rdctrl : decode [0x02] = .cmd .rdctrl [] := by decide
theorem test_decode_wrctrl : decode [0x03, 0xFF] = .cmd (.wrctrl 0xFF) [] := by decide
theorem test_decode_rdstat : decode [0x04] = .cmd .rdstat [] := by decide
theorem test_decode_escInit : decode [0x10] = .cmd .escInit [] := by decide
theorem test_decode_escPut : decode [0x11, 0x7E] = .cmd (.escPut 0x7E) [] := by decide
theorem test_decode_uneInit : decode [0x18] = .cmd .uneInit [] := by decide
theorem test_decode_unePut : decode [0x19, 0x5E] = .cmd (.unePut 0x5E) [] := by decide
theorem test_decode_uneEnd : decode [0x1A] = .cmd .uneEnd [] := by decide
theorem test_decode_ckInit : decode [0x20] = .cmd .ckInit [] := by decide
theorem test_decode_ckAdd : decode [0x21, 0x03] = .cmd (.ckAdd 0x03) [] := by decide
theorem test_decode_ckGet : decode [0x22] = .cmd .ckGet [] := by decide
theorem test_decode_ckRaw : decode [0x23] = .cmd .ckRaw [] := by decide
theorem test_decode_ckTest : decode [0x24] = .cmd .ckTest [] := by decide
theorem test_decode_send : decode [0x30, 0x02, 0x12, 0x34, 0x41, 0x42, 0x00] = .cmd (.send 0x1234 [0x41, 0x42]) [0x00] := by
  decide
theorem test_decode_recv : decode [0x31, 0x00, 0x02, 0x7E, 0x00] = .cmd (.recv [0x7E, 0x00]) [] := by decide
theorem test_decode_rbEnq : decode [0x40, 0xAA] = .cmd (.rbEnq 0xAA) [] := by decide
theorem test_decode_rbDeq : decode [0x41] = .cmd .rbDeq [] := by decide
theorem test_decode_rbEnqseq : decode [0x42, 0x00, 0x03, 0x01, 0x02, 0x03] = .cmd (.rbEnqseq [1, 2, 3]) [] := by decide
theorem test_decode_rbPeek : decode [0x43, 0x00, 0xD9] = .cmd (.rbPeek 217) [] := by decide
theorem test_decode_rbCopy : decode [0x44, 0x01, 0x00] = .cmd (.rbCopy 256) [] := by decide
theorem test_decode_rbClear : decode [0x45, 0xFF, 0xFF] = .cmd pseudoClearAll [] := by decide
theorem test_decode_rbSize : decode [0x46] = .cmd .rbSize [] := by decide
theorem test_decode_rbHead : decode [0x47] = .cmd .rbHead [] := by decide
theorem test_decode_rbTail : decode [0x48] = .cmd .rbTail [] := by decide
theorem test_decode_rbEmpty : decode [0x49] = .cmd .rbEmpty [] := by decide
theorem test_decode_rbFull : decode [0x4A] = .cmd .rbFull [] := by decide
theorem test_decode_illegal : decode [0x05, 0x00] = .illegal 0x05 [0x00] := by decide
theorem test_decode_incomplete : decode [0x31, 0x01, 0x00, 0x7E] = .incomplete := by decide
theorem test_encode_pseudoSend : encode (pseudoSend [0x7E]) = [0x30, 0x01, 0xFF, 0xFF, 0x7E] := by decide

/-! ### Table words -/

/-- Byte k of a command is bits 8k+7..8k of its table word. -/
theorem test_tableWord_send : decodeTableWord 48 0x424134120230 = some (.send 0x1234 [0x41, 0x42]) := by decide
theorem test_tableWord_short : decodeTableWord 8 0x31 = some (.recv []) := by decide
theorem test_tableWord_illegal : decodeTableWord 8 0x05 = none := by decide
theorem test_fetchWord_runs :
    (after (step (State.reset.withFetchWord 8 0x04))).map (fun t => t.rspq) = some [0x00, 0x00, 0x05] := by decide

/-! ### System commands -/

/-- V-S1. -/
theorem test_nop : answer .nop State.reset = some [0x00, 0x00, 0x00] := by decide

/-- V-S6. -/
theorem test_reset :
    after (exec .reset { full4 with escSt := .rest, uneSt := .escaped, ctrl := 3, rspq := [0, 0, 0, 0, 0, 0] }) =
      some { State.resetWith small with rspq := [0x00, 0x00, 0x00] } := by decide

/-- V-S4. -/
theorem test_rdctrl : answer .rdctrl { State.reset with ctrl := 3 } = some [0x00, 0x00, 0x03] := by decide

/-- V-S3. -/
theorem test_wrctrl :
    (after (exec (.wrctrl 0xFF) State.reset)).map (fun t => (t.ctrl, t.rspq)) = some (3, [0x00, 0x00, 0x03]) := by decide

/-- V-S2. -/
theorem test_rdstat_reset : answer .rdstat State.reset = some [0x00, 0x00, 0x05] := by decide

/-- V-S7. -/
theorem test_rdstat_full :
    answer .rdstat { full4 with escSt := .rest, uneSt := .normal } = some [0x00, 0x00, 0x0A] := by decide

/-! ### Engines -/

/-- V-M5. -/
theorem test_escInit :
    (after (exec .escInit { State.reset with escSt := .rest })).map (fun t => (t.escSt, t.rspq)) =
      some (.first, [0x00, 0x00, 0x00]) := by decide

/-- V-M1. -/
theorem test_escPut_first :
    (after (exec (.escPut 0x7E) State.reset)).map (fun t => (t.escSt, t.rspq)) =
      some (.rest, [0x00, 0x00, 0x01, 0x7E]) := by decide

/-- V-M2. -/
theorem test_escPut_rest : answer (.escPut 0x7E) { State.reset with escSt := .rest } =
    some [0x00, 0x00, 0x02, 0x7D, 0x5E] := by decide

/-- V-M11. -/
theorem test_uneInit :
    (after (exec .uneInit { State.reset with uneSt := .escaped })).map (fun t => (t.uneSt, t.rspq)) =
      some (.first, [0x00, 0x00, 0x00]) := by decide

/-- V-M6. -/
theorem test_unePut_first :
    (after (exec (.unePut 0x7D) State.reset)).map (fun t => (t.uneSt, t.rspq)) =
      some (.normal, [0x00, 0x00, 0x01, 0x7D]) := by decide

/-- V-M8. -/
theorem test_unePut_escaped :
    (after (exec (.unePut 0x5E) { State.reset with uneSt := .escaped })).map (fun t => (t.uneSt, t.rspq)) =
      some (.normal, [0x00, 0x00, 0x01, 0x7E]) := by decide

/-- V-M9. -/
theorem test_uneEnd_escaped :
    (after (exec .uneEnd { State.reset with uneSt := .escaped })).map (fun t => (t.uneSt, t.rspq)) =
      some (.first, [0x14, 0x00, 0x00]) := by decide

/-- V-M10. -/
theorem test_uneEnd_normal :
    (after (exec .uneEnd { State.reset with uneSt := .normal })).map (fun t => (t.uneSt, t.rspq)) =
      some (.first, [0x00, 0x00, 0x00]) := by decide

/-- R117. -/
theorem test_ckInit :
    (after (exec .ckInit { State.reset with ckAcc := 0xCB })).map (fun t => (t.ckAcc, t.rspq)) =
      some (0, [0x00, 0x00, 0x00]) := by decide

/-- V-M12. -/
theorem test_ckAdd_wraps :
    (after (exec (.ckAdd 0x03) { State.reset with ckAcc := 0xFE })).map (fun t => (t.ckAcc, t.rspq)) =
      some (1, [0x00, 0x00, 0x01]) := by decide

/-- V-M13. -/
theorem test_ckGet : answer .ckGet { State.reset with ckAcc := 0xCB } = some [0x00, 0x00, 0x34] := by decide

/-- V-M14. -/
theorem test_ckRaw : answer .ckRaw { State.reset with ckAcc := 0xCB } = some [0x00, 0x00, 0xCB] := by decide

/-- V-M15. -/
theorem test_ckTest_mismatch : answer .ckTest { State.reset with ckAcc := 0xCB } = some [0x13, 0x00, 0x00] := by decide

/-- V-M16. -/
theorem test_ckTest_ok : answer .ckTest { State.reset with ckAcc := 0xFF } = some [0x00, 0x00, 0x00] := by decide

/-! ### Codec functions -/

/-- V-E6. -/
theorem test_escape : escape [0x7E, 0x7E, 0x11, 0x13, 0x7D, 0x20, 0x5E] =
    [0x7E, 0x7D, 0x5E, 0x7D, 0x31, 0x7D, 0x33, 0x7D, 0x5D, 0x20, 0x5E] := by decide

/-- V-U10. -/
theorem test_unescape : unescape [0x7E, 0x7D, 0x5E, 0x7D, 0x31, 0x7D, 0x33, 0x7D, 0x5D] =
      some [0x7E, 0x7E, 0x11, 0x13, 0x7D] ∧
    posList [0x7E, 0x7D, 0x5E, 0x7D, 0x31, 0x7D, 0x33, 0x7D, 0x5D] = [0, 2, 4, 6, 8] := by decide

/-- V-U3, V-U5, V-U11. -/
theorem test_unescape_corners : unescape [0x7E, 0x7D] = none ∧ unescape [0x7E, 0x7D, 0x7D] = some [0x7E, 0x5D] ∧
    unescape [0x7D, 0x7D, 0x5E] = some [0x7D, 0x7E] := by decide

/-- V-C2. -/
theorem test_cksum : cksum [0xFF, 0xFF, 0x03] = 0x01 := by decide

/-! ### SEND and RECV -/

/-- V-F8. -/
theorem test_send : answer (.send 0x1313 [0x7D, 0x11, 0x13, 0x7E]) State.reset =
    some [0x00, 0x00, 0x13, 0x7E, 0x00, 0x09, 0x01, 0x00, 0x7D, 0x33, 0x7D, 0x33, 0x01, 0x7D, 0x5D, 0x7D, 0x31, 0x7D,
      0x33, 0x7D, 0x5E, 0xB8] := by decide

/-- V-F15. -/
theorem test_send_too_large : answer (.send 0 (List.replicate 92 0)) State.reset = some [0x18, 0x00, 0x00] := by decide

/-- V-R2. -/
theorem test_recv : answer (.recv [0x7E, 0x00, 0x06, 0x01, 0x00, 0xFF, 0xFF, 0x01, 0x7D, 0x5E, 0x81]) State.reset =
    some [0x00, 0x00, 0x0A, 0x00, 0x0B, 0x7E, 0x00, 0x06, 0x01, 0x00, 0xFF, 0xFF, 0x01, 0x7E, 0x81] := by decide

/-- V-R20. -/
theorem test_recv_tolerant :
    answer (.recv [0x7E, 0x00, 0x00, 0xFF, 0x00, 0x00, 0x00, 0x00, 0x00, 0x00]) { State.reset with ctrl := 1 } =
      some [0x00, 0x00, 0x0A, 0x00, 0x04, 0x7E, 0x00, 0x00, 0xFF, 0x00, 0x00, 0x00, 0x00, 0x00, 0x00] := by decide

/-! ### The ring -/

/-- V-B6. -/
theorem test_rbEnq_wraps : after (exec (.rbEnq 0x41) (ringState Config.standard [] 219 219 0)) =
    some { ringState Config.standard [(219, 0x41)] 219 0 1 with rspq := [0x00, 0x00, 0x01] } := by decide

/-- spec/95_test_vectors.md 2.5, CAP = 4. -/
theorem test_rbEnq_full : after (exec (.rbEnq 7) full4) = some { full4 with rspq := [0x20, 0x00, 0x00] } := by decide

/-- R152's example. -/
theorem test_rbDeq : after (exec .rbDeq (ringState Config.standard [(0, 0x42), (219, 0x41)] 219 1 2)) =
    some { ringState Config.standard [(0, 0x42)] 0 1 1 with rspq := [0x00, 0x00, 0x41] } := by decide

/-- V-B1. -/
theorem test_rbDeq_empty : after (exec .rbDeq State.reset) = some { State.reset with rspq := [0x21, 0x00, 0x00] } := by
  decide

/-- V-B8, with CAP = 4 and SIZE = 2. -/
theorem test_rbEnqseq_partial : after (exec (.rbEnqseq [1, 2, 3]) part4) =
    some { ringState small [(0, 0x0B), (1, 1), (2, 2), (3, 0x0A)] 3 3 4 with rspq := [0x20, 0x00, 0x02] } := by decide

/-- V-B9. -/
theorem test_rbEnqseq_none : answer (.rbEnqseq []) full4 = some [0x00, 0x00, 0x00] := by decide

/-- spec/95_test_vectors.md 2.5, CAP = 4. -/
theorem test_rbPeek : answer (.rbPeek 3) full4 = some [0x00, 0x00, 0x06] := by decide

/-- V-B11. -/
theorem test_rbPeek_out_of_range : answer (.rbPeek 2) part4 = some [0x22, 0x00, 0x00] := by decide

/-- spec/95_test_vectors.md 2.5, CAP = 4. -/
theorem test_rbCopy_wraps : answer (.rbCopy 3) full4 = some [0x00, 0x00, 0x04, 0x06, 0x03, 0x04, 0x05] := by decide

/-- spec/95_test_vectors.md 2.5, CAP = 4, after RB.ENQSEQ [01 02 03]. -/
theorem test_rbCopy_free_slot : answer (.rbCopy 2) (ringState small [(0, 1), (1, 2), (2, 3)] 0 3 3) =
    some [0x00, 0x00, 0x03, 0x03, 0x00, 0x01] := by decide

/-- V-B13. -/
theorem test_rbClear : after (exec (.rbClear 2) (ringState Config.standard [(0, 1), (1, 2), (2, 3), (3, 4), (4, 5)] 0 5 5)) =
    some { ringState Config.standard [(2, 3), (3, 4), (4, 5)] 2 5 3 with rspq := [0x00, 0x00, 0x02] } := by decide

/-- V-B14, CTRL = 2. -/
theorem test_rbClear_full_reports_capacity :
    after (exec (.rbClear 9) { ringState Config.standard [(2, 3), (3, 4), (4, 5)] 2 5 3 with ctrl := 2 }) =
      some { ringState Config.standard [] 5 5 0 with ctrl := 2, rspq := [0x00, 0x00, 0xDC] } := by decide

/-- R157. -/
theorem test_rbSize : answer .rbSize { State.reset with size := 220 } = some [0x00, 0x00, 0xDC] := by decide

/-- P2, line 7. -/
theorem test_rbHead : answer .rbHead (ringState Config.standard [] 11 11 0) = some [0x00, 0x00, 0x0B] := by decide

/-- R159. -/
theorem test_rbTail : answer .rbTail (ringState Config.standard [(0, 5)] 0 1 1) = some [0x00, 0x00, 0x01] := by decide

/-- R160. -/
theorem test_rbEmpty : answer .rbEmpty State.reset = some [0x00, 0x00, 0x01] := by decide

/-- R161. -/
theorem test_rbFull : answer .rbFull full4 = some [0x00, 0x00, 0x01] ∧ answer .rbFull part4 = some [0x00, 0x00, 0x00] := by
  decide

/-! ### Ports -/

/-- V-B15. -/
theorem test_push_full : after (step { full4 with inputs := [.push 0x99] }) = some { full4 with acks := [false] } := by decide

/-- V-B16. -/
theorem test_push_empty : after (step { empty4 with inputs := [.push 0x99] }) =
    some { ringState small [(3, 0x99)] 3 0 1 with acks := [true] } := by decide

/-- V-X1. -/
theorem test_illegal_opcode : after (step { State.reset with inputs := [.cmdByte 0x05] }) =
    some { State.reset with rspq := [0x01, 0x00, 0x00] } := by decide

/-- R243: a header alone holds. -/
theorem test_hold : after (step { State.reset with cpb := [0x42, 0x00], inputs := [.cmdByte 0x03] }) =
    some { State.reset with cpb := [0x42, 0x00, 0x03] } := by decide

/-- R37. -/
theorem test_hostRead : after (step { State.reset with rspq := [0x01, 0x02], inputs := [.hostRead] }) =
    some { State.reset with rspq := [0x02], hostRx := [0x01] } := by decide

/-- R231, R233. -/
theorem test_resetInput : after (step { full4 with cpb := [0x42], rspq := [0], inputs := [.resetInput] }) =
    some (State.resetWith small) := by decide

/-- S9: parameters outside R8 are refused. -/
theorem test_not_a_configuration : after (step (State.resetWith ⟨0, 100, 256⟩)) = none := by decide

/-! ### Values that meet the hypotheses of the statements -/

theorem witness_DecodeReadsBackEveryCommand : (Instr.send 0xFFFF (List.replicate 255 0x7E)).wellFormed = true := by
  simp [Instr.wellFormed]

theorem witness_DecodedBytesAreTheEncoding : decode [0x30, 0x01, 0xFF, 0xFF, 0x7E, 0x04] = .cmd (pseudoSend [0x7E]) [0x04] := by
  decide

theorem witness_DecoderWaitsForTheWholeCommand :
    decode [0x31, 0x00, 0x01, 0x7E] = .cmd (.recv [0x7E]) [] ∧ decode [0xFF] = .illegal 0xFF [] ∧
    decode [0x31, 0x00, 0x01] = .incomplete := by decide

theorem witness_IllegalOpcodesAnswerIllegalCommand :
    let s : State := { State.reset with inputs := [.cmdByte 0x4B] }
    s.cfg.Legal ∧ s.cpb = [] ∧ s.inputs = .cmdByte 0x4B :: [] ∧ decode [0x4B] = .illegal 0x4B [] := by decide

theorem witness_StepRunsTheDecodedCommand :
    let s : State := { full4 with cpb := [0x43, 0x00], inputs := [.cmdByte 0x03] }
    s.cfg.Legal ∧ s.inputs = .cmdByte 0x03 :: [] ∧ decode (s.cpb ++ [0x03]) = .cmd (.rbPeek 3) [] := by decide

theorem witness_IncompleteCommandWaitsInCpb :
    let s : State := { full4 with cpb := [0x43], inputs := [.cmdByte 0x00] }
    s.cfg.Legal ∧ s.inputs = .cmdByte 0x00 :: [] ∧ decode (s.cpb ++ [0x00]) = .incomplete := by decide

theorem witness_PushStepEnqueuesAndAcknowledges :
    let s : State := { full4 with inputs := [.push 0x99] }
    let t : State := { part4 with inputs := [.push 0x99] }
    (s.cfg.Legal ∧ PointersOk s ∧ Memory.wf s.store ∧ s.inputs = .push 0x99 :: [] ∧ s.size.toNat = s.cfg.cap) ∧
    (t.cfg.Legal ∧ PointersOk t ∧ Memory.wf t.store ∧ t.inputs = .push 0x99 :: [] ∧ t.size.toNat < t.cfg.cap) := by decide

theorem witness_HostReadsFromTheFrontAndIdlingKeepsTheState :
    let s : State := { State.reset with rspq := [0x00, 0x01], inputs := [.hostRead] }
    let t : State := { State.reset with inputs := [.hostRead] }
    s.cfg.Legal ∧ s.inputs = .hostRead :: [] ∧ s.rspq = 0x00 :: [0x01] ∧ t.cfg.Legal ∧ t.inputs = .hostRead :: [] ∧
    t.rspq = [] ∧ State.reset.cfg.Legal ∧ State.reset.inputs = [] := by decide

theorem witness_ResetInputSetsEveryRegister :
    let s : State := { full4 with inputs := [.resetInput] }
    s.cfg.Legal ∧ s.inputs = .resetInput :: [] := by decide

theorem witness_PortScheduleIsTheAtomicRun :
    let as : List AtomicStep := [.push 0x55, .command (.send 0xFFFF []), .push 0x56]
    let s : State := { part4 with
      inputs := [.push 0x55, .cmdByte 0x30, .cmdByte 0x00, .cmdByte 0xFF, .cmdByte 0xFF, .push 0x56, .hostRead] }
    s.cfg.Legal ∧ s.cpb = [] ∧ (Instr.send 0xFFFF []).wellFormed = true ∧
    s.inputs = as.flatMap portEvents ++ [.hostRead] := by decide

theorem witness_PushBetweenCommandBytesComesFirst :
    let s : State := { part4 with inputs := [.cmdByte 0x44, .push 0x99, .cmdByte 0x00, .cmdByte 0x00] }
    s.cfg.Legal ∧ s.cpb = [] ∧ (Instr.rbCopy 0).wellFormed = true ∧
    encode (.rbCopy 0) = [0x44] ++ [0x00, 0x00] ∧
    s.inputs = ([0x44] : List Byte).map PortEvent.cmdByte ++ [.push 0x99] ++ ([0x00, 0x00] : List Byte).map PortEvent.cmdByte ++
      [] := by decide

theorem witness_PlacedTableWordRunsNext :
    State.reset.cfg.Legal ∧ decodeTableWord 8 0x30 = some (.send 0 []) := by decide

theorem witness_ControlRegisterKeepsTwoBits : CtrlOk { State.reset with ctrl := 3 } := by decide

theorem witness_RdstatReportsTheStatusView :
    State.reset.uneSt = .first ∧ { State.reset with uneSt := .normal }.uneSt = .normal ∧
    { State.reset with uneSt := .escaped }.uneSt = .escaped := by decide

theorem witness_EscapeEngineStep :
    State.reset.escSt = .first ∧ { State.reset with escSt := .rest }.escSt = .rest ∧
    ((0x13 : Byte) = 0x7E ∨ (0x13 : Byte) = 0x7D ∨ (0x13 : Byte) = 0x11 ∨ (0x13 : Byte) = 0x13) ∧
    ¬((0x12 : Byte) = 0x7E ∨ (0x12 : Byte) = 0x7D ∨ (0x12 : Byte) = 0x11 ∨ (0x12 : Byte) = 0x13) ∧
    answer .nop { State.reset with escSt := .rest } = some [0x00, 0x00, 0x00] ∧ Instr.nop ≠ .escInit ∧ Instr.nop ≠ .reset := by decide

theorem witness_UnescapeEngineStep :
    State.reset.uneSt = .first ∧ { State.reset with uneSt := .normal }.uneSt = .normal ∧
    { State.reset with uneSt := .escaped }.uneSt = .escaped ∧ State.reset.uneSt ≠ .escaped ∧ (0x7C : Byte) ≠ 0x7D := by decide

theorem witness_ChecksumAccumulatorStep :
    { State.reset with ckAcc := 0xFF }.ckAcc = 0xFF ∧ { State.reset with ckAcc := 0xFE }.ckAcc ≠ 0xFF := by decide

theorem witness_UnescapeEngineEmitsUnescape :
    unescape [0x7E, 0x7D, 0x5E] = some [0x7E, 0x7E] ∧ unescape [0x7E, 0x7D] = none := by decide

theorem witness_UnescapeFollowsItsRules : (0x7E : Byte) ≠ 0x7D := by decide

theorem witness_PositionsCompleteEachOutputByte :
    unescape [0x7E, 0x7D, 0x5E] = some [0x7E, 0x7E] ∧ ([0x7E, 0x7D, 0x5E] : List Byte) ≠ [] ∧
    (posList [0x7E, 0x7D, 0x5E])[1]? = some 2 := by decide

theorem witness_SendBuildsAndEscapesTheFrame :
    ([0x41, 0x42] : List Byte).length = (0x02 : Byte).toNat ∧
    (List.replicate 91 (0x55 : Byte)).length ≤ State.reset.cfg.scratchSize - 9 ∧
    State.reset.cfg.scratchSize - 9 < (List.replicate 92 (0x00 : Byte)).length := by decide

theorem witness_WireFrameHasNoBareReservedByte :
    (List.replicate 250 (0x00 : Byte)).length ≤ 250 ∧ (List.replicate 91 (0x00 : Byte)).length ≤ 91 ∧
    (escape (buildFrame 0x7D11 []))[5]? = some 0x7D := by decide

theorem witness_RecvReportsTheFirstFailedCheck :
    let c := State.reset.cfg
    w1.length = (0x00 : Byte).toNat * 256 + (0x0B : Byte).toNat ∧
    c.rinSize < (List.replicate 257 (0x00 : Byte)).length ∧ ([] : List Byte).length ≤ c.rinSize ∧
    ([0x00] : List Byte).head? ≠ some 0x7E ∧
    ((List.replicate 9 (0x7E : Byte)).head? = some 0x7E ∧ (List.replicate 9 (0x7E : Byte)).length < 10) ∧
    (w1.head? = some 0x7E ∧ 10 ≤ w1.length ∧ unescape (w1.dropLast ++ [0x7D]) = none ∧ unescape w1 = some w1) := by decide

/-- The three outcomes of a window that unescapes: V-R8, V-R11, V-R1. -/
theorem witness_RecvReportsTheFirstFailedCheck_outcomes :
    State.reset.ctrl.getLsbD 0 = false ∧
    unescape w1.dropLast = some w1.dropLast ∧ 0x00 * 256 + 0x07 ≠ w1.dropLast.length - 4 ∧
    0x00 * 256 + 0x07 = w1.length - 4 ∧ cksum (((w1.dropLast ++ [0x35]).drop 3).take 8) ≠ 0xFF ∧
    cksum ((w1.drop 3).take 8) = 0xFF := by decide

theorem witness_ConsumedBytesAreOneFrame :
    State.reset.cfg.Legal ∧
    answer (.recv w1) State.reset = some (State.reset.rspq ++ 0x00 :: ([0x00, 0x0B, 0x00, 0x0B] ++ w1)) ∧
    State.reset.ctrl.getLsbD 0 = false := by decide

theorem witness_RecvRecoversWhatSendBuilt :
    State.reset.cfg.Legal ∧ (List.replicate 91 (0x55 : Byte)).length ≤ State.reset.cfg.maxPayload ∧
    isReserved (hiByte 0x7D11) = true ∧
    ¬(([] : List Byte) ≠ [] ∨ isReserved (hiByte 0xFFFF) = true ∨ isReserved (loByte 0xFFFF) = true ∨
      isReserved ((buildFrame 0xFFFF []).getD 8 0) = true) := by decide

/-- V-F5 for a frame of 9 bytes, V-R13 for the dangling escape, V-R12 for a flip inside an escape pair. -/
theorem witness_FlippedLastBitIsRejected :
    State.reset.cfg.Legal ∧ (escape (buildFrame 0xFFFF [])).length = 9 ∧
    ((escape (buildFrame 0 [0x81])).length ≠ 9 ∧ (escape (buildFrame 0 [0x81])).getLastD 0 ^^^ BitVec.ofNat 8 (2 ^ 0) = 0x7D ∧
      isReserved ((buildFrame 0 [0x81]).getLastD 0) = false) ∧
    ((escape (buildFrame 0 [0x80])).length ≠ 9 ∧ (escape (buildFrame 0 [0x80])).getLastD 0 ^^^ BitVec.ofNat 8 (2 ^ 5) = 0x7D ∧
      isReserved ((buildFrame 0 [0x80]).getLastD 0) = true) := by decide

theorem witness_SendAndRecvReadNoRegisterButLenpol :
    full4.cfg = empty4.cfg ∧ full4 ≠ empty4 ∧ full4.ctrl.getLsbD 0 = { empty4 with ctrl := 2 }.ctrl.getLsbD 0 := by decide

/-- A full ring, and a ring with room whose pointers wrap. -/
theorem witness_EnqueueStoresAtTail :
    (PointersOk full4 ∧ Memory.wf full4.store ∧ full4.size.toNat = full4.cfg.cap) ∧
    (PointersOk part4 ∧ Memory.wf part4.store ∧ part4.size.toNat < part4.cfg.cap) := by decide

/-- An empty ring, and a ring whose oldest byte is in the last slot. -/
theorem witness_DequeueTakesAndZeroesTheOldest :
    (PointersOk empty4 ∧ Memory.wf empty4.store ∧ empty4.size = 0) ∧
    (PointersOk part4 ∧ Memory.wf part4.store ∧ part4.size ≠ 0) := by decide

theorem witness_EnqueueSequenceAcceptsWhatFits :
    ([1, 2, 3] : List Byte).length = (0x00 : Byte).toNat * 256 + (0x03 : Byte).toNat ∧ PointersOk part4 ∧ StoreOk part4 ∧
    min ([1, 2, 3] : List Byte).length (part4.cfg.cap - part4.size.toNat) = 2 := by decide

/-- An empty ring, the first offset out of range, the last in range. -/
theorem witness_PeekReadsALogicalPosition :
    (PointersOk empty4 ∧ empty4.size = 0) ∧
    PointersOk part4 ∧ (part4.size ≠ 0 ∧ part4.size.toNat ≤ (2 : Half).toNat) ∧ (1 : Half).toNat < part4.size.toNat := by
  decide

/-- The same, and the three ranges of R166 for a copy of three bytes from offset 2 with CAP = 4. -/
theorem witness_CopyReadsAroundTheStorage :
    (PointersOk empty4 ∧ empty4.size = 0) ∧ (PointersOk part4 ∧ part4.size ≠ 0 ∧ part4.size.toNat ≤ (2 : Half).toNat) ∧
    let s := ringState small [(0, 1), (1, 2), (2, 3)] 0 3 3
    PointersOk s ∧ FreeSlotsZero s ∧ (2 : Half).toNat < s.size.toNat ∧ 2 + 0 < s.size.toNat ∧
    (s.size.toNat ≤ 2 + 1 ∧ 2 + 1 < s.cfg.cap) ∧ s.cfg.cap ≤ 2 + 2 := by decide

theorem witness_ClearZeroesTheOldestAndReportsTheCount :
    let s : State := { part4 with ctrl := 2 }
    PointersOk s ∧ StoreOk s ∧ (s.size.toNat ≤ (2 : Half).toNat ∧ s.ctrl.getLsbD 1 = true) ∧
    ¬s.size.toNat ≤ (1 : Half).toNat := by decide

theorem witness_FullAndEmptyRingsAreNotMutated : full4.size.toNat = full4.cfg.cap ∧ empty4.size.toNat = 0 := by decide

theorem witness_RingRefinesAQueue :
    PointersOk part4 ∧ StoreOk part4 ∧
    after (exec .rbDeq part4) ≠ none ∧ after (pushByte 0x99 part4) ≠ none ∧ contents part4 = [0x0A, 0x0B] := by decide

theorem witness_RingHoldsExactlyItsCapacity :
    after (atomicRun [.push 1, .command .rbDeq, .push 2] part4) ≠ none ∧
    (PointersOk empty4 ∧ StoreOk empty4 ∧ empty4.size.toNat = 0 ∧ ([1, 2, 3, 4] : List Byte).length = empty4.cfg.cap) := by
  decide

theorem witness_BytesLeaveInTheOrderAccepted :
    PointersOk part4 ∧ StoreOk part4 ∧
    (fifoRun [.push 1, .command .rbDeq, .command (.rbEnqseq [2, 3, 4])] part4).map (fun x => (x.1, x.2.1)) =
      some ([1, 2, 3], [0x0A]) := by decide

theorem witness_BytesLeaveInTheOrderAccepted_no_clear :
    ∀ a ∈ [AtomicStep.push 1, .command .rbDeq], a ≠ .command .reset ∧ ∀ upto, a ≠ .command (.rbClear upto) := by simp

theorem witness_PushesNeverMoveTheCopiedWindow :
    PointersOk part4 ∧ StoreOk part4 ∧ (2 : Half).toNat ≤ part4.size.toNat := by decide

theorem witness_EveryStepKeepsTheInvariant :
    let s : State := { part4 with cpb := [0x42, 0x00], ctrl := 3, inputs := [.push 0x99] }
    Inv s ∧ after (step s) ≠ none := by decide

theorem witness_NoStepStopsTheBlock : Inv { full4 with cpb := [0x42, 0x00], ctrl := 3, inputs := [.push 0x99] } := by decide

theorem witness_SomeCommandsAnswerOnlyOk : Inv part4 := by decide

theorem witness_ResetHasTheInvariant : small.Legal ∧ Config.Legal ⟨65535, 259, 65535⟩ := by decide

theorem witness_EveryCommandGetsOneResponse :
    (full4.cfg.Legal ∧ PointersOk full4 ∧ answer (.rbCopy 0) full4 = some [0x00, 0x00, 0x04, 0x03, 0x04, 0x05, 0x06]) ∧
    answer (.rbEnq 7) full4 = some [0x20, 0x00, 0x00] ∧
    decode { full4 with cpb := [0x4B] }.cpb = .illegal 0x4B [] := by decide

theorem witness_FailedCommandsChangeNothing :
    PointersOk full4 ∧ StoreOk full4 ∧ answer (.rbEnq 7) full4 = some (full4.rspq ++ ([0x20, 0x00, 0x00] ++ [])) ∧
    answer (.rbEnqseq [1, 2, 3]) part4 = some (part4.rspq ++ ([0x20, 0x00, 0x02] ++ [])) ∧
    answer .uneEnd { full4 with uneSt := .escaped } = some (full4.rspq ++ ([0x14, 0x00, 0x00] ++ [])) := by decide

theorem witness_ReadsRepeatWithoutSideEffect : PointersOk part4 := by decide

theorem witness_OnlyTheListedCommandsWriteEachRegister :
    after (exec (.rbClear 1) part4) ≠ none ∧ (Instr.rbClear 1) ≠ .reset := by decide

theorem witness_ParametersAreFixedAndLegal :
    after (step State.reset) = some State.reset ∧ ¬(State.resetWith ⟨0, 100, 256⟩).cfg.Legal := by decide

end Sys2Proof.Tests
end

section
/-! PROOFS. The statements of spec/00_scope.md: the parameters are fixed and legal (R8), and the codec and the ring do
not see each other (R1, R58). -/

namespace Sys2Proof.Machine

/-! ### The parameters -/

theorem enqueue_cfg {b : Byte} {s t : State} {a : Bool} (h : enqueue b s = some (a, t)) : t.cfg = s.cfg := by
  rw [enqueue_next h]

theorem enqueueAll_cfg {d : List Byte} {s t : State} {n : Nat} (h : enqueueAll d s = some (n, t)) : t.cfg = s.cfg := by
  rw [enqueueAll_next d h]

theorem zeroRun_cfg {k n : Nat} {s t : State} (h : zeroRun k n s = some t) : t.cfg = s.cfg := by
  rw [zeroRun_next n h]

theorem pushByte_cfg {b : Byte} {s t : State} (h : pushByte b s = .next t) : t.cfg = s.cfg := by
  rw [pushByte_next h]

theorem execRbEnq_cfg {b : Byte} {s t : State} (h : execRbEnq b s = .next t) : t.cfg = s.cfg := by
  unfold execRbEnq at h
  split at h
  · cases h
  · next u hu => cases h; simpa using enqueue_cfg hu
  · next u hu => cases h; simpa using enqueue_cfg hu

theorem execRbDeq_cfg {s t : State} (h : execRbDeq s = .next t) : t.cfg = s.cfg := by
  unfold execRbDeq at h
  split at h
  · cases h; rfl
  · split at h
    · next b u _ hu =>
      obtain ⟨-, rfl⟩ := writeSlot_next hu
      cases h
      rfl
    · cases h

theorem execRbEnqseq_cfg {d : List Byte} {s t : State} (h : execRbEnqseq d s = .next t) : t.cfg = s.cfg := by
  unfold execRbEnqseq at h
  split at h
  · cases h
  · next n u hu => split at h <;> cases h <;> simpa using enqueueAll_cfg hu

theorem execRbClear_cfg {upto : Half} {s t : State} (h : execRbClear upto s = .next t) : t.cfg = s.cfg := by
  obtain ⟨u, hu, rfl⟩ := Option.map_eq_some_iff.1 (orNoSuchSlot_next h)
  simpa using zeroRun_cfg hu

/-- No command writes the parameters. -/
theorem exec_cfg {i : Instr} {s t : State} (h : exec i s = .next t) : t.cfg = s.cfg := by
  cases hw : writesRing i with
  | false => exact (exec_sameRing hw h).1
  | true =>
    cases i <;> simp only [writesRing, Bool.false_eq_true] at hw
    case reset => cases h; rfl
    case rbEnq b => exact execRbEnq_cfg h
    case rbDeq => exact execRbDeq_cfg h
    case rbEnqseq d => exact execRbEnqseq_cfg h
    case rbClear upto => exact execRbClear_cfg h

theorem runParsed_cfg {s t : State} (h : runParsed s = .next t) : t.cfg = s.cfg := by
  unfold runParsed at h
  split at h
  · exact (exec_cfg h :)
  · cases h; rfl
  · cases h; rfl

theorem readResponse_cfg {s t : State} (h : readResponse s = .next t) : t.cfg = s.cfg := by
  unfold readResponse at h
  split at h <;> cases h <;> rfl

/-- No port event writes the parameters. -/
theorem deliver_cfg {e : PortEvent} {s t : State} (h : deliver e s = .next t) : t.cfg = s.cfg := by
  cases e with
  | cmdByte b => exact (runParsed_cfg (s := { s with cpb := s.cpb ++ [b] }) h :)
  | push b => exact pushByte_cfg h
  | hostRead => exact readResponse_cfg h
  | resetInput => cases h; rfl

theorem step_not_legal {s : State} (hl : ¬s.cfg.Legal) : step s = .refused .notAConfiguration := if_neg hl

theorem step_next_legal {s t : State} (h : step s = .next t) : s.cfg.Legal := by
  by_contra hl
  rw [step_not_legal hl] at h
  cases h

theorem step_cfg {s t : State} (h : step s = .next t) : t.cfg = s.cfg := by
  have hl := step_next_legal h
  cases hi : s.inputs with
  | nil =>
    rw [step_idle hl hi] at h
    cases h
    rfl
  | cons e es =>
    rw [step_event hl hi] at h
    exact (deliver_cfg h :)

/-- Settles O59: the legality test of `step` is the only way to a next state, and no port event writes `cfg`. -/
theorem parametersAreFixedAndLegal : Obligations.ParametersAreFixedAndLegal :=
  ⟨fun _ _ h => ⟨step_next_legal h, step_cfg h⟩, fun _ hl => step_not_legal hl⟩

/-! ### Updates outside the ring

The ring's shared operations read only the parameters, STORE, HEAD, TAIL and SIZE, and write only the last four. So they
change places with every update of the state that leaves these (and the acknowledges of a push) as they are. -/

/-- The update `f` neither reads nor writes the ring's registers and the acknowledges, and keeps the parameters. -/
structure OutsideRing (f : State → State) : Prop where
  /-- The parameters stay. -/
  cfg : ∀ s, (f s).cfg = s.cfg
  /-- What the ring holds is neither read nor written: `f` changes places with writing all of it. -/
  update : ∀ (s : State) (m : Memory) (h t z : Half) (a : List Bool),
    f { s with store := m, head := h, tail := t, size := z, acks := a } =
      { f s with store := m, head := h, tail := t, size := z, acks := a }

section OutsideRing

variable {f : State → State} (hf : OutsideRing f)
include hf

theorem OutsideRing.eq_self (s : State) :
    f s = { f s with store := s.store, head := s.head, tail := s.tail, size := s.size, acks := s.acks } :=
  hf.update s s.store s.head s.tail s.size s.acks

theorem OutsideRing.store (s : State) : (f s).store = s.store := by rw [hf.eq_self]

theorem OutsideRing.head (s : State) : (f s).head = s.head := by rw [hf.eq_self]

theorem OutsideRing.tail (s : State) : (f s).tail = s.tail := by rw [hf.eq_self]

theorem OutsideRing.size (s : State) : (f s).size = s.size := by rw [hf.eq_self]

theorem OutsideRing.acks (s : State) : (f s).acks = s.acks := by rw [hf.eq_self]

theorem OutsideRing.update_store (s : State) (m : Memory) : f { s with store := m } = { f s with store := m } :=
  (hf.update s m s.head s.tail s.size s.acks).trans (by simp only [hf.head, hf.tail, hf.size, hf.acks])

theorem OutsideRing.update_tail_size (s : State) (t z : Half) :
    f { s with tail := t, size := z } = { f s with tail := t, size := z } :=
  (hf.update s s.store s.head t z s.acks).trans (by simp only [hf.store, hf.head, hf.acks])

theorem OutsideRing.update_acks (s : State) (a : List Bool) : f { s with acks := a } = { f s with acks := a } :=
  (hf.update s s.store s.head s.tail s.size a).trans (by simp only [hf.store, hf.head, hf.tail, hf.size])

theorem OutsideRing.phys (s : State) (k : Nat) : phys (f s) k = phys s k := by
  unfold Machine.phys
  rw [hf.cfg, hf.head]

theorem OutsideRing.readSlot (s : State) (i : Nat) : readSlot (f s) i = readSlot s i := by
  unfold Machine.readSlot
  rw [hf.cfg, hf.store]

theorem OutsideRing.writeSlot (i : Nat) (b : Byte) (s : State) : writeSlot i b (f s) = (writeSlot i b s).map f := by
  by_cases hi : i < s.cfg.cap
  · rw [writeSlot_of_lt b hi, writeSlot_of_lt b (show i < (f s).cfg.cap by rwa [hf.cfg]), hf.store]
    exact congrArg some (hf.update_store s _).symm
  · unfold Machine.writeSlot
    rw [if_neg hi, if_neg (by rwa [hf.cfg])]
    rfl

theorem OutsideRing.enqueue (b : Byte) (s : State) :
    enqueue b (f s) = (enqueue b s).map (Prod.map id f) := by
  unfold Machine.enqueue nextIndex
  rw [hf.cfg, hf.size, hf.tail, hf.writeSlot]
  split
  · rfl
  · cases Machine.writeSlot s.tail.toNat b s with
    | none => rfl
    | some u => exact congrArg (fun v => some (true, v)) (hf.update_tail_size u _ _).symm

theorem OutsideRing.enqueueAll (d : List Byte) : ∀ s : State,
    enqueueAll d (f s) = (enqueueAll d s).map (Prod.map id f) := by
  induction d with
  | nil => intro s; rfl
  | cons b r ih =>
    intro s
    unfold Machine.enqueueAll
    rw [hf.enqueue]
    rcases Machine.enqueue b s with _ | ⟨_ | _, u⟩
    · rfl
    · rfl
    · simp only [Option.map_some, Prod.map, id, ih]
      cases Machine.enqueueAll r u <;> rfl

theorem OutsideRing.readRun (n : Nat) : ∀ (s : State) (k : Nat), readRun (f s) k n = readRun s k n := by
  induction n with
  | zero => intro s k; rfl
  | succ n ih =>
    intro s k
    unfold Machine.readRun
    rw [hf.phys, hf.readSlot, ih]

theorem OutsideRing.zeroRun (n : Nat) : ∀ (k : Nat) (s : State), zeroRun k n (f s) = (zeroRun k n s).map f := by
  induction n with
  | zero => intro k s; rfl
  | succ n ih =>
    intro k s
    unfold Machine.zeroRun
    rw [hf.phys, hf.writeSlot]
    cases Machine.writeSlot (Machine.phys s k) 0 s with
    | none => rfl
    | some u => exact ih (k + 1) u

/-- A push changes places with an update outside the ring. -/
theorem OutsideRing.pushByte (b : Byte) (s : State) : pushByte b (f s) = mapNext f (pushByte b s) := by
  unfold Machine.pushByte
  rw [hf.enqueue]
  rcases Machine.enqueue b s with _ | ⟨a, u⟩
  · rfl
  · show Host.Outcome.next { f u with acks := (f u).acks ++ [a] } = .next (f { u with acks := u.acks ++ [a] })
    rw [hf.acks]
    exact congrArg _ (hf.update_acks u _).symm

end OutsideRing

/-! ### The ring does not see the engine registers -/

/-- The state with other values of the engine registers ESC_ST, UNE_ST and CK_ACC (R31 to R33). -/
abbrev withEngines (e : EscState) (u : UneState) (k : Byte) (s : State) : State :=
  { s with escSt := e, uneSt := u, ckAcc := k }

theorem outsideRing_withEngines (e : EscState) (u : UneState) (k : Byte) : OutsideRing (withEngines e u k) :=
  ⟨fun _ => rfl, fun _ _ _ _ _ _ => rfl⟩

section Engines

variable (e : EscState) (u : UneState) (k : Byte) (s : State)

theorem execRbEnq_withEngines (b : Byte) :
    execRbEnq b (withEngines e u k s) = mapNext (withEngines e u k) (execRbEnq b s) := by
  unfold execRbEnq
  rw [(outsideRing_withEngines e u k).enqueue]
  rcases enqueue b s with _ | ⟨_ | _, t⟩ <;> rfl

theorem execRbDeq_withEngines :
    execRbDeq (withEngines e u k s) = mapNext (withEngines e u k) (execRbDeq s) := by
  unfold execRbDeq
  rw [(outsideRing_withEngines e u k).writeSlot, (outsideRing_withEngines e u k).readSlot]
  change (if ringEmpty s = true then _ else _) = _
  split
  · rfl
  · cases readSlot s s.head.toNat <;> cases writeSlot s.head.toNat 0 s <;> rfl

theorem execRbEnqseq_withEngines (d : List Byte) :
    execRbEnqseq d (withEngines e u k s) = mapNext (withEngines e u k) (execRbEnqseq d s) := by
  unfold execRbEnqseq
  rw [(outsideRing_withEngines e u k).enqueueAll]
  rcases enqueueAll d s with _ | ⟨n, t⟩
  · rfl
  · change (if n < d.length then _ else _) = mapNext _ (if n < d.length then _ else _)
    split <;> rfl

theorem execRbPeek_withEngines (off : Half) :
    execRbPeek off (withEngines e u k s) = mapNext (withEngines e u k) (execRbPeek off s) := by
  unfold execRbPeek
  rw [(outsideRing_withEngines e u k).phys, (outsideRing_withEngines e u k).readSlot]
  change (if ringEmpty s = true then _ else if s.size.toNat ≤ off.toNat then _ else _) = _
  split
  · rfl
  · split
    · rfl
    · cases readSlot s (phys s off.toNat) <;> rfl

theorem execRbCopy_withEngines (start : Half) :
    execRbCopy start (withEngines e u k s) = mapNext (withEngines e u k) (execRbCopy start s) := by
  unfold execRbCopy
  rw [(outsideRing_withEngines e u k).readRun]
  change (if ringEmpty s = true then _ else if s.size.toNat ≤ start.toNat then _ else
    orNoSuchSlot (Option.map _ (readRun s start.toNat s.size.toNat))) = _
  split
  · rfl
  · split
    · rfl
    · cases readRun s start.toNat s.size.toNat <;> rfl

theorem execRbClear_withEngines (upto : Half) :
    execRbClear upto (withEngines e u k s) = mapNext (withEngines e u k) (execRbClear upto s) := by
  unfold execRbClear
  rw [(outsideRing_withEngines e u k).zeroRun]
  change orNoSuchSlot (Option.map _ (Option.map _ (zeroRun 0 (clearCount upto s) s))) = _
  cases zeroRun 0 (clearCount upto s) s <;> rfl

end Engines

/-- Settles O57, command by command: each is its shared ring operation, which an update of the engine registers does not
reach, followed by a response. -/
theorem ringIgnoresTheCodec : Obligations.RingIgnoresTheCodec := by
  intro s e u k x b d
  refine ⟨?_, (outsideRing_withEngines e u k).pushByte b s⟩
  simp only [List.forall_mem_cons]
  exact ⟨execRbEnq_withEngines e u k s b, execRbDeq_withEngines e u k s, execRbEnqseq_withEngines e u k s d,
    execRbPeek_withEngines e u k s x, execRbCopy_withEngines e u k s x, execRbClear_withEngines e u k s x,
    rfl, rfl, rfl, rfl, rfl, by simp⟩

/-! ### The codec does not see the ring -/

/-- What a codec or control command can do: write the engine registers and CTRL, and append a response. -/
def codecEffect (st : Status) (r : Half) (tl : List Byte) (e : EscState) (u : UneState) (k c : Byte) (s : State) :
    State :=
  finish st r tl { s with escSt := e, uneSt := u, ckAcc := k, ctrl := c }

theorem outsideRing_codecEffect (st : Status) (r : Half) (tl : List Byte) (e : EscState) (u : UneState) (k c : Byte) :
    OutsideRing (codecEffect st r tl e u k c) :=
  ⟨fun _ => rfl, fun _ _ _ _ _ _ => rfl⟩

/-- The state with other values of what a push can write. -/
abbrev withPushed (m : Memory) (t z : Half) (a : List Bool) (s : State) : State :=
  { s with store := m, tail := t, size := z, acks := a }

/-- The command has, from `s`, one and the same effect outside the ring whatever a push may have written. -/
def IgnoresPushes (i : Instr) (s : State) : Prop :=
  ∃ f, OutsideRing f ∧ ∀ m t z a, exec i (withPushed m t z a s) = .next (f (withPushed m t z a s))

/-- Such a command and a push give the same outcome in either order. -/
theorem IgnoresPushes.commute {i : Instr} {s : State} (h : IgnoresPushes i s) (b : Byte) :
    atomicRun [.command i, .push b] s = atomicRun [.push b, .command i] s := by
  obtain ⟨f, hf, hi⟩ := h
  have hs : exec i s = .next (f s) := hi s.store s.tail s.size s.acks
  have hpush : pushByte b (f s) = mapNext f (pushByte b s) := hf.pushByte b s
  simp only [atomicRun, atomic, hs, hpush]
  cases hp : pushByte b s with
  | next t =>
    have ht : exec i t = .next (f t) := by
      rw [pushByte_next hp]
      exact hi t.store t.tail t.size t.acks
    simp only [mapNext, ht]
  | fault r => rfl
  | refused r => rfl

/-- A command with one `codecEffect` from `s` ignores pushes. -/
theorem ignoresPushes_of_effect {i : Instr} {s : State} (st : Status) (r : Half) (tl : List Byte) (e : EscState)
    (u : UneState) (k c : Byte)
    (h : ∀ m t z a, exec i (withPushed m t z a s) = .next (codecEffect st r tl e u k c (withPushed m t z a s))) :
    IgnoresPushes i s :=
  ⟨codecEffect st r tl e u k c, outsideRing_codecEffect st r tl e u k c, h⟩

/-- A command that only answers, with one response from `s`, ignores pushes. -/
theorem ignoresPushes_of_response {i : Instr} {s : State} (st : Status) (r : Half) (tl : List Byte)
    (h : ∀ m t z a, exec i (withPushed m t z a s) = .next (finish st r tl (withPushed m t z a s))) :
    IgnoresPushes i s :=
  ignoresPushes_of_effect st r tl s.escSt s.uneSt s.ckAcc s.ctrl h

section Codec

variable (s : State)

theorem nop_ignoresPushes : IgnoresPushes .nop s := ignoresPushes_of_response .ok 0 [] fun _ _ _ _ => rfl

theorem rdctrl_ignoresPushes : IgnoresPushes .rdctrl s :=
  ignoresPushes_of_response .ok (zext16 (readCtrl s)) [] fun _ _ _ _ => rfl

theorem wrctrl_ignoresPushes (c : Byte) : IgnoresPushes (.wrctrl c) s :=
  ignoresPushes_of_effect .ok (zext16 (readCtrl (writeCtrl c s))) [] s.escSt s.uneSt s.ckAcc (c &&& 0x03)
    fun _ _ _ _ => rfl

theorem escInit_ignoresPushes : IgnoresPushes .escInit s :=
  ignoresPushes_of_effect .ok 0 [] .first s.uneSt s.ckAcc s.ctrl fun _ _ _ _ => rfl

theorem escPut_ignoresPushes (c : Byte) : IgnoresPushes (.escPut c) s := by
  cases h : s.escSt with
  | first =>
    refine ignoresPushes_of_effect .ok 1 [c] .rest s.uneSt s.ckAcc s.ctrl fun m t z a => ?_
    simp only [exec, execEscPut, h]
    rfl
  | rest =>
    refine ignoresPushes_of_response .ok (half (escByte c).length) (escByte c) fun m t z a => ?_
    simp only [exec, execEscPut, h]
    rfl

theorem uneInit_ignoresPushes : IgnoresPushes .uneInit s :=
  ignoresPushes_of_effect .ok 0 [] s.escSt .first s.ckAcc s.ctrl fun _ _ _ _ => rfl

theorem unePut_ignoresPushes (c : Byte) : IgnoresPushes (.unePut c) s := by
  cases h : s.uneSt with
  | first =>
    refine ignoresPushes_of_effect .ok 1 [c] s.escSt .normal s.ckAcc s.ctrl fun m t z a => ?_
    simp only [exec, execUnePut, h]
    rfl
  | normal =>
    by_cases hc : c = escByteValue
    · refine ignoresPushes_of_effect .ok 0 [] s.escSt .escaped s.ckAcc s.ctrl fun m t z a => ?_
      simp only [exec, execUnePut, h, if_pos hc]
      rfl
    · refine ignoresPushes_of_response .ok 1 [c] fun m t z a => ?_
      simp only [exec, execUnePut, h, if_neg hc]
      rfl
  | escaped =>
    refine ignoresPushes_of_effect .ok 1 [c ^^^ xorMask] s.escSt .normal s.ckAcc s.ctrl fun m t z a => ?_
    simp only [exec, execUnePut, h]
    rfl

theorem uneEnd_ignoresPushes : IgnoresPushes .uneEnd s := by
  cases h : s.uneSt with
  | first | normal =>
    refine ignoresPushes_of_effect .ok 0 [] s.escSt .first s.ckAcc s.ctrl fun m t z a => ?_
    simp only [exec, execUneEnd, h]
    rfl
  | escaped =>
    refine ignoresPushes_of_effect .danglingEscape 0 [] s.escSt .first s.ckAcc s.ctrl fun m t z a => ?_
    simp only [exec, execUneEnd, h]
    rfl

theorem ckInit_ignoresPushes : IgnoresPushes .ckInit s :=
  ignoresPushes_of_effect .ok 0 [] s.escSt s.uneSt 0 s.ctrl fun _ _ _ _ => rfl

theorem ckAdd_ignoresPushes (c : Byte) : IgnoresPushes (.ckAdd c) s :=
  ignoresPushes_of_effect .ok (zext16 (addMod256 s.ckAcc c)) [] s.escSt s.uneSt (addMod256 s.ckAcc c) s.ctrl
    fun _ _ _ _ => rfl

theorem ckGet_ignoresPushes : IgnoresPushes .ckGet s :=
  ignoresPushes_of_response .ok (zext16 (complement s.ckAcc)) [] fun _ _ _ _ => rfl

theorem ckRaw_ignoresPushes : IgnoresPushes .ckRaw s :=
  ignoresPushes_of_response .ok (zext16 s.ckAcc) [] fun _ _ _ _ => rfl

theorem ckTest_ignoresPushes : IgnoresPushes .ckTest s := by
  by_cases h : s.ckAcc ≠ 0xFF
  · exact ignoresPushes_of_response .checksumMismatch 0 [] fun m t z a => if_pos h
  · exact ignoresPushes_of_response .ok 0 [] fun m t z a => if_neg h

theorem send_ignoresPushes (addr : Half) (p : List Byte) : IgnoresPushes (.send addr p) s := by
  by_cases h : s.cfg.maxPayload < p.length
  · exact ignoresPushes_of_response .payloadTooLarge 0 [] fun m t z a => if_pos h
  · exact ignoresPushes_of_response .ok (half (escape (buildFrame addr p)).length) (escape (buildFrame addr p))
      fun m t z a => if_neg h

theorem recv_ignoresPushes (w : List Byte) : IgnoresPushes (.recv w) s := by
  have hpol : ∀ m t z a, lenpolTolerant (withPushed m t z a s) = lenpolTolerant s := fun _ _ _ _ => rfl
  cases h : parseWindow s.cfg.rinSize (lenpolTolerant s) w with
  | accepted u n =>
    refine ignoresPushes_of_response .ok (half u.length) (halfBytes (half n) ++ u) fun m t z a => ?_
    simp only [exec, execRecv, hpol, h]
  | rejected st =>
    refine ignoresPushes_of_response st 0 [] fun m t z a => ?_
    simp only [exec, execRecv, hpol, h]
    rfl

end Codec

/-- Settles O58: each listed command has one effect outside the ring whatever a push wrote, and a push changes places
with every such effect. -/
theorem codecCommandsCommuteWithPushes : Obligations.CodecCommandsCommuteWithPushes := by
  intro s b c addr l i hi
  refine IgnoresPushes.commute ?_ b
  revert i
  simp only [List.forall_mem_cons]
  exact ⟨nop_ignoresPushes s, rdctrl_ignoresPushes s, wrctrl_ignoresPushes s c, escInit_ignoresPushes s,
    escPut_ignoresPushes s c, uneInit_ignoresPushes s, unePut_ignoresPushes s c, uneEnd_ignoresPushes s,
    ckInit_ignoresPushes s, ckAdd_ignoresPushes s c, ckGet_ignoresPushes s, ckRaw_ignoresPushes s,
    ckTest_ignoresPushes s, send_ignoresPushes s addr l, recv_ignoresPushes s l, by simp⟩

end Sys2Proof.Machine
end

section
/-! PROOFS. The statements of spec/10_state.md: every command and push acts on the ring as on a queue (R29), every step
keeps the machine's invariant (R27, R28, R34, R36), each register is written by its own commands only (R41), and the
reset values (R39). -/

namespace Sys2Proof

/-! ### The byte that completes a command is its last (R36, R84) -/

/-- The bytes after the command at the front; none while it is incomplete. -/
def Decoded.rest : Decoded → List Byte
  | .cmd _ rest => rest
  | .illegal _ rest => rest
  | .incomplete => []

theorem takeA_append_rest {r : List Byte} {mk : Byte → Instr} (b : Byte) (h : takeA r mk = .incomplete) :
    (takeA (r ++ [b]) mk).rest = [] := by
  match r, h with
  | [], _ => rfl

theorem takeB_append_rest {r : List Byte} {mk : Half → Instr} (b : Byte) (h : takeB r mk = .incomplete) :
    (takeB (r ++ [b]) mk).rest = [] := by
  match r, h with
  | [], _ => rfl
  | [_], _ => rfl

theorem takeTail_append_rest {n : Nat} {r : List Byte} {mk : List Byte → Instr} (b : Byte)
    (h : takeTail n r mk = .incomplete) : (takeTail n (r ++ [b]) mk).rest = [] := by
  rw [takeTail_incomplete] at h
  unfold takeTail
  split
  · exact List.drop_eq_nil_of_le (by simpa using h)
  · rfl

/-- A tail of which no byte has arrived: it is empty, or it is awaited. -/
theorem takeTail_nil_rest (n : Nat) (mk : List Byte → Instr) : (takeTail n [] mk).rest = [] := by
  unfold takeTail
  split
  · exact List.drop_nil
  · rfl

theorem takeBTail_append_rest {r : List Byte} {mk : List Byte → Instr} (b : Byte) (h : takeBTail r mk = .incomplete) :
    (takeBTail (r ++ [b]) mk).rest = [] := by
  match r, h with
  | [], _ => rfl
  | [_], _ => exact takeTail_nil_rest _ _
  | _ :: _ :: _, h => exact takeTail_append_rest b h

theorem takeABTail_append_rest {r : List Byte} {mk : Half → List Byte → Instr} (b : Byte)
    (h : takeABTail r mk = .incomplete) : (takeABTail (r ++ [b]) mk).rest = [] := by
  match r, h with
  | [], _ => rfl
  | [_], _ => rfl
  | [_, _], _ => exact takeTail_nil_rest _ _
  | _ :: _ :: _ :: _, h => exact takeTail_append_rest b h

theorem decodeOpcode_nil_rest (opc : Byte) : (decodeOpcode opc []).rest = [] := by
  obtain ⟨i, -, -, hd, -⟩ | ⟨mk, -, hd, -⟩ | ⟨mk, -, hd, -⟩ | ⟨mk, -, hd, -⟩ | ⟨mk, -, hd, -⟩ | ⟨hd, -⟩ :=
    decodeOpcode_cases opc <;> rw [hd] <;> rfl

theorem decodeOpcode_append_rest {opc : Byte} {r : List Byte} (b : Byte) (h : decodeOpcode opc r = .incomplete) :
    (decodeOpcode opc (r ++ [b])).rest = [] := by
  obtain ⟨i, -, -, hd, -⟩ | ⟨mk, -, hd, -⟩ | ⟨mk, -, hd, -⟩ | ⟨mk, -, hd, -⟩ | ⟨mk, -, hd, -⟩ | ⟨hd, -⟩ :=
    decodeOpcode_cases opc <;> rw [hd] at h ⊢
  · cases h
  · exact takeA_append_rest b h
  · exact takeB_append_rest b h
  · exact takeBTail_append_rest b h
  · exact takeABTail_append_rest b h
  · cases h

/-- A byte that completes a command leaves nothing after it. -/
theorem decode_append_rest {bs : List Byte} (b : Byte) (h : decode bs = .incomplete) :
    (decode (bs ++ [b])).rest = [] := by
  cases bs with
  | nil => exact decodeOpcode_nil_rest b
  | cons opc r => exact decodeOpcode_append_rest b h

end Sys2Proof

namespace Sys2Proof.Machine

/-! ### Reset (R39) -/

theorem resetWith_pointersOk {c : Config} (h1 : 1 ≤ c.cap) (h2 : c.cap ≤ 65535) : PointersOk (State.resetWith c) :=
  ⟨h1, h2, h1, Nat.zero_le _, (Nat.zero_mod _).symm⟩

theorem resetWith_storeOk (c : Config) : StoreOk (State.resetWith c) :=
  ⟨State.resetWith_store_wf c, fun _ hc => absurd hc List.not_mem_nil⟩

theorem resetWith_freeSlotsZero (c : Config) : FreeSlotsZero (State.resetWith c) := fun _ _ _ => Memory.read_nil _

theorem resetWith_inv {c : Config} (h : c.Legal) : Inv (State.resetWith c) :=
  ⟨h, resetWith_pointersOk h.1 h.2.1, resetWith_storeOk c, resetWith_freeSlotsZero c, Nat.zero_le _, decode_nil⟩

/-- Settles O49: an empty ring over zeroed storage at index 0 has the ring's invariants for every legal CAP, and CTRL 0
and an empty CPB have theirs. -/
theorem resetHasTheInvariant : Obligations.ResetHasTheInvariant :=
  ⟨resetWith_inv (by decide), fun _ h => resetWith_inv h⟩

/-- Settles O50: `State.resetWith` is the table of R39, and an empty memory reads 0 at every address. -/
theorem resetValuesAreAsTabled : Obligations.ResetValuesAreAsTabled :=
  ⟨rfl, rfl, fun _ => ⟨rfl, Memory.read_nil, rfl, rfl, rfl, rfl, rfl, rfl, rfl, rfl, rfl⟩⟩

/-- Resetting a running block leaves the ring as in the reset state of its configuration. -/
theorem resetState_sameRing (s : State) : SameRing (State.resetWith s.cfg) (resetState s) := ⟨rfl, rfl, rfl, rfl, rfl⟩

/-! ### Steps that only move bytes at the ports (R36, R37, R220) -/

theorem runParsed_incomplete {s : State} (h : decode s.cpb = .incomplete) : runParsed s = .next s := by
  unfold runParsed
  rw [h]

theorem readResponse_nil {s : State} (h : s.rspq = []) : readResponse s = .next s := by
  unfold readResponse
  rw [h]

theorem readResponse_cons {s : State} {b : Byte} {r : List Byte} (h : s.rspq = b :: r) :
    readResponse s = .next { s with rspq := r, hostRx := s.hostRx ++ [b] } := by
  unfold readResponse
  rw [h]

/-- Settles O7: the parser holds an incomplete command in CPB. -/
theorem incompleteCommandWaitsInCpb : Obligations.IncompleteCommandWaitsInCpb := by
  intro s b es hl hi hd
  rw [step_cmdByte hl hi]
  exact runParsed_incomplete hd

/-- Settles O9: an idle step, and a host read by whether RSPQ holds a byte. -/
theorem hostReadsFromTheFrontAndIdlingKeepsTheState : Obligations.HostReadsFromTheFrontAndIdlingKeepsTheState := by
  intro s hl
  refine ⟨step_idle hl, fun es hi => ?_⟩
  rw [step_event hl hi]
  exact ⟨fun h => readResponse_nil h, fun b r h => readResponse_cons h⟩

/-! ### What each command writes (R41) -/

/-- `s` with the registers that R41 lists as written by `i` taken from `t`, RESET and the responses apart. -/
def withWritten (i : Instr) (s t : State) : State :=
  match i with
  | .escInit | .escPut _ => { s with escSt := t.escSt }
  | .uneInit | .unePut _ | .uneEnd => { s with uneSt := t.uneSt }
  | .ckInit | .ckAdd _ => { s with ckAcc := t.ckAcc }
  | .wrctrl _ => { s with ctrl := t.ctrl }
  | .rbEnq _ | .rbEnqseq _ => { s with store := t.store, tail := t.tail, size := t.size }
  | .rbDeq | .rbClear _ => { s with store := t.store, head := t.head, size := t.size }
  | _ => s

theorem execEscPut_next {b : Byte} {s t : State} (h : execEscPut b s = .next t) :
    ∃ r tl, t = finish .ok r tl { s with escSt := t.escSt } := by
  unfold execEscPut at h
  split at h <;> cases h <;> exact ⟨_, _, rfl⟩

theorem execUnePut_next {b : Byte} {s t : State} (h : execUnePut b s = .next t) :
    ∃ r tl, t = finish .ok r tl { s with uneSt := t.uneSt } := by
  unfold execUnePut at h
  split at h
  · cases h; exact ⟨_, _, rfl⟩
  · split at h <;> cases h <;> exact ⟨_, _, rfl⟩
  · cases h; exact ⟨_, _, rfl⟩

theorem execUneEnd_next {s t : State} (h : execUneEnd s = .next t) :
    ∃ st, t = finish st 0 [] { s with uneSt := t.uneSt } := by
  unfold execUneEnd at h
  split at h <;> cases h <;> exact ⟨_, rfl⟩

theorem execCkTest_next {s t : State} (h : execCkTest s = .next t) : ∃ st, t = finish st 0 [] s := by
  unfold execCkTest at h
  split at h <;> cases h <;> exact ⟨_, rfl⟩

theorem execRbEnq_next {b : Byte} {s t : State} (h : execRbEnq b s = .next t) :
    ∃ st r, t = finish st r [] { s with store := t.store, tail := t.tail, size := t.size } := by
  unfold execRbEnq at h
  split at h
  · cases h
  all_goals
    next u hu =>
    cases h
    exact ⟨_, _, congrArg (finish _ _ []) (enqueue_next hu)⟩

theorem execRbDeq_next {s t : State} (h : execRbDeq s = .next t) :
    ∃ st r, t = finish st r [] { s with store := t.store, head := t.head, size := t.size } := by
  unfold execRbDeq at h
  split at h
  · cases h; exact ⟨_, _, rfl⟩
  · split at h
    · next b u _ hu =>
      obtain ⟨-, rfl⟩ := writeSlot_next hu
      cases h
      exact ⟨_, _, rfl⟩
    · cases h

theorem execRbEnqseq_next {d : List Byte} {s t : State} (h : execRbEnqseq d s = .next t) :
    ∃ st r, t = finish st r [] { s with store := t.store, tail := t.tail, size := t.size } := by
  unfold execRbEnqseq at h
  split at h
  · cases h
  · next n u hu => split at h <;> cases h <;> exact ⟨_, _, congrArg (finish _ _ []) (enqueueAll_next d hu)⟩

theorem execRbClear_next {upto : Half} {s t : State} (h : execRbClear upto s = .next t) :
    ∃ r, t = finish .ok r [] { s with store := t.store, head := t.head, size := t.size } := by
  obtain ⟨u, hu, rfl⟩ := Option.map_eq_some_iff.1 (orNoSuchSlot_next h)
  refine ⟨_, congrArg (finish _ _ []) ?_⟩
  rw [zeroRun_next _ hu]
  rfl

/-- Every command but RESET appends one response and writes no other register than those R41 lists for it. -/
theorem exec_next {i : Instr} {s t : State} (hi : i ≠ .reset) (h : exec i s = .next t) :
    ∃ st r tl, t = finish st r tl (withWritten i s t) := by
  cases i
  case reset => exact absurd rfl hi
  case escPut b => exact ⟨_, execEscPut_next h⟩
  case unePut b => exact ⟨_, execUnePut_next h⟩
  case uneEnd => obtain ⟨st, e⟩ := execUneEnd_next h; exact ⟨st, _, _, e⟩
  case ckTest => obtain ⟨st, e⟩ := execCkTest_next h; exact ⟨st, _, _, e⟩
  case send addr p =>
    obtain ⟨st, r, tl, e⟩ := execSend_next addr p s
    cases e.symm.trans h
    exact ⟨st, r, tl, rfl⟩
  case recv w =>
    obtain ⟨st, r, tl, e⟩ := execRecv_next w s
    cases e.symm.trans h
    exact ⟨st, r, tl, rfl⟩
  case rbEnq b => obtain ⟨st, r, e⟩ := execRbEnq_next h; exact ⟨st, r, _, e⟩
  case rbDeq => obtain ⟨st, r, e⟩ := execRbDeq_next h; exact ⟨st, r, _, e⟩
  case rbEnqseq d => obtain ⟨st, r, e⟩ := execRbEnqseq_next h; exact ⟨st, r, _, e⟩
  case rbPeek off => obtain ⟨st, r, e⟩ := execRbPeek_next h; exact ⟨st, r, _, e⟩
  case rbCopy start => exact execRbCopy_next h
  case rbClear upto => obtain ⟨r, e⟩ := execRbClear_next h; exact ⟨_, r, _, e⟩
  all_goals
    cases h
    exact ⟨_, _, _, rfl⟩

section

variable (i : Instr) (s t : State)

theorem withWritten_outside : (withWritten i s t).cfg = s.cfg ∧ (withWritten i s t).inputs = s.inputs ∧
    (withWritten i s t).acks = s.acks ∧ (withWritten i s t).hostRx = s.hostRx ∧ (withWritten i s t).cpb = s.cpb ∧
    (withWritten i s t).rspq = s.rspq := by
  cases i <;> exact ⟨rfl, rfl, rfl, rfl, rfl, rfl⟩

theorem withWritten_escSt : (withWritten i s t).escSt = s.escSt ∨ i = .escInit ∨ ∃ b, i = .escPut b := by
  cases i <;> simp [withWritten]

theorem withWritten_uneSt : (withWritten i s t).uneSt = s.uneSt ∨ i = .uneInit ∨ i = .uneEnd ∨ ∃ b, i = .unePut b := by
  cases i <;> simp [withWritten]

theorem withWritten_ckAcc : (withWritten i s t).ckAcc = s.ckAcc ∨ i = .ckInit ∨ ∃ b, i = .ckAdd b := by
  cases i <;> simp [withWritten]

theorem withWritten_ctrl : (withWritten i s t).ctrl = s.ctrl ∨ ∃ a, i = .wrctrl a := by
  cases i <;> simp [withWritten]

theorem withWritten_head : (withWritten i s t).head = s.head ∨ i = .rbDeq ∨ ∃ u, i = .rbClear u := by
  cases i <;> simp [withWritten]

theorem withWritten_tail : (withWritten i s t).tail = s.tail ∨ (∃ b, i = .rbEnq b) ∨ ∃ d, i = .rbEnqseq d := by
  cases i <;> simp [withWritten]

theorem withWritten_size : (withWritten i s t).size = s.size ∨
    i = .rbDeq ∨ (∃ u, i = .rbClear u) ∨ (∃ b, i = .rbEnq b) ∨ ∃ d, i = .rbEnqseq d := by
  cases i <;> simp [withWritten]

theorem withWritten_store : (withWritten i s t).store = s.store ∨
    i = .rbDeq ∨ (∃ u, i = .rbClear u) ∨ (∃ b, i = .rbEnq b) ∨ ∃ d, i = .rbEnqseq d := by
  cases i <;> simp [withWritten]

end

/-- A register that a response leaves alone differs after a command only where `withWritten` writes it. -/
theorem exec_writes {α : Type} {i : Instr} {s t : State} {listed : Prop} (hi : i ≠ .reset) (h : exec i s = .next t)
    (reg : State → α) (hw : reg (withWritten i s t) = reg s ∨ listed)
    (hreg : ∀ st r tl u, reg (finish st r tl u) = reg u := by intros; rfl) (hne : reg t ≠ reg s) : listed := by
  obtain ⟨st, r, tl, e⟩ := exec_next hi h
  exact hw.resolve_left fun hsame => hne ((congrArg reg e).trans ((hreg st r tl _).trans hsame))

/-- No command but RESET touches the parameters, CPB and what lies outside the block, and it only appends to RSPQ. -/
theorem exec_outside {i : Instr} {s t : State} (hi : i ≠ .reset) (h : exec i s = .next t) :
    t.cfg = s.cfg ∧ t.inputs = s.inputs ∧ t.acks = s.acks ∧ t.hostRx = s.hostRx ∧ t.cpb = s.cpb ∧ s.rspq <+: t.rspq := by
  obtain ⟨st, r, tl, e⟩ := exec_next hi h
  obtain ⟨hcfg, hin, hack, hrx, hcpb, hrsp⟩ := withWritten_outside i s t
  refine ⟨(congrArg State.cfg e).trans hcfg, (congrArg State.inputs e).trans hin, (congrArg State.acks e).trans hack,
    (congrArg State.hostRx e).trans hrx, (congrArg State.cpb e).trans hcpb, ?_⟩
  exact ⟨response st r tl, (congrArg (· ++ response st r tl) hrsp.symm).trans (congrArg State.rspq e).symm⟩

/-- Settles O56: RESET keeps what lies outside the block, and every other command writes no more than `withWritten`. -/
theorem onlyTheListedCommandsWriteEachRegister : Obligations.OnlyTheListedCommandsWriteEachRegister := by
  intro i s t h
  by_cases hi : i = .reset
  · subst hi
    cases h
    exact ⟨rfl, rfl, rfl, rfl, fun hne => absurd rfl hne⟩
  · obtain ⟨hcfg, hin, hack, hrx, hcpb, hrsp⟩ := exec_outside hi h
    exact ⟨hcfg, hin, hack, hrx, fun _ => ⟨hcpb, hrsp,
      exec_writes hi h State.escSt (withWritten_escSt i s t),
      exec_writes hi h State.uneSt (withWritten_uneSt i s t),
      exec_writes hi h State.ckAcc (withWritten_ckAcc i s t),
      exec_writes hi h State.ctrl (withWritten_ctrl i s t),
      exec_writes hi h State.head (withWritten_head i s t),
      exec_writes hi h State.tail (withWritten_tail i s t),
      fun hne => hne.elim (exec_writes hi h State.size (withWritten_size i s t))
        (exec_writes hi h State.store (withWritten_store i s t))⟩⟩

/-! ### Every command and push acts on the ring as on a queue (R29, R163 to R167) -/

/-- What a step from `s` leaves of the ring in `t`: the ring's invariants, and the queue `q` as its contents. -/
structure RingHolds (s t : State) (q : List Byte) : Prop where
  /-- R24 to R27. -/
  pointers : PointersOk t
  /-- R23, R50. -/
  store : StoreOk t
  /-- R28 is kept where it held. -/
  free : FreeSlotsZero s → FreeSlotsZero t
  /-- R29. -/
  queue : contents t = q

/-- Only the ring's registers count. -/
theorem RingHolds.of_sameRing {s t u : State} {q : List Byte} (h : RingHolds s t q) (e : SameRing t u) :
    RingHolds s u q :=
  ⟨e.pointersOk h.pointers, e.storeOk h.store, fun hf => e.freeSlotsZero (h.free hf), e.contents.trans h.queue⟩

theorem RingHolds.refl {s : State} (hp : PointersOk s) (hs : StoreOk s) : RingHolds s s (contents s) :=
  ⟨hp, hs, id, rfl⟩

theorem sameRing_finish (st : Status) (r : Half) (tl : List Byte) (s : State) : SameRing s (finish st r tl s) :=
  ⟨rfl, rfl, rfl, rfl, rfl⟩

theorem RingHolds.finish {s t : State} {q : List Byte} (h : RingHolds s t q) (st : Status) (r : Half) (tl : List Byte) :
    RingHolds s (finish st r tl t) q := h.of_sameRing (sameRing_finish st r tl t)

theorem resetState_ringHolds {s : State} (hp : PointersOk s) : RingHolds s (resetState s) [] :=
  RingHolds.of_sameRing (t := State.resetWith s.cfg)
    ⟨resetWith_pointersOk hp.1 hp.2.1, resetWith_storeOk _, fun _ => resetWith_freeSlotsZero _, contents_eq_nil rfl⟩
    (resetState_sameRing s)

/-- The queue of R29 with one byte offered to it: refused when it is full (R150). -/
def offer (cap : Nat) (q : List Byte) (b : Byte) : List Byte := if q.length = cap then q else q ++ [b]

theorem enqueue_ringHolds {b : Byte} {s t : State} {a : Bool} (hp : PointersOk s) (hs : StoreOk s)
    (h : enqueue b s = some (a, t)) : RingHolds s t (offer s.cfg.cap (contents s) b) := by
  unfold offer
  rw [contents_length]
  rcases enqueue_cases b hp with ⟨hfull, e⟩ | ⟨hlt, e⟩
  · cases e.symm.trans h
    rw [if_pos hfull]
    exact .refl hp hs
  · cases e.symm.trans h
    rw [if_neg hlt.ne]
    exact ⟨stored_pointersOk b hp hlt, stored_storeOk b hp hs, stored_freeSlotsZero b hp hlt,
      stored_contents b hp hs.1 hlt⟩

theorem dropped_ringHolds {s : State} {n : Nat} {m : Memory} (hp : PointersOk s) (hn : n ≤ s.size.toNat)
    (hm : StoreOk { s with store := m }) (hz : ∀ j, j < n → Memory.read m (phys s j) = 0)
    (hold : ∀ a, (∀ j, j < n → a ≠ phys s j) → Memory.read m a = Memory.read s.store a) :
    RingHolds s (dropped n m s) ((contents s).drop n) :=
  ⟨dropped_pointersOk hp hn m, hm, dropped_freeSlotsZero hp hn hz hold, dropped_contents hp hn hold⟩

theorem pushByte_ringHolds {b : Byte} {s t : State} (hp : PointersOk s) (hs : StoreOk s) (h : pushByte b s = .next t) :
    RingHolds s t (offer s.cfg.cap (contents s) b) := by
  unfold pushByte at h
  split at h
  · cases h
  · next a u hu =>
    cases h
    exact (enqueue_ringHolds hp hs hu).of_sameRing ⟨rfl, rfl, rfl, rfl, rfl⟩

theorem execRbEnq_ringHolds {b : Byte} {s t : State} (hp : PointersOk s) (hs : StoreOk s)
    (h : execRbEnq b s = .next t) : RingHolds s t (offer s.cfg.cap (contents s) b) := by
  unfold execRbEnq at h
  split at h
  · cases h
  all_goals
    next u hu =>
    cases h
    exact (enqueue_ringHolds hp hs hu).finish _ _ _

theorem execRbEnqseq_ringHolds {d : List Byte} {s t : State} (hp : PointersOk s) (hs : StoreOk s)
    (h : execRbEnqseq d s = .next t) :
    RingHolds s t (contents s ++ d.take (s.cfg.cap - (contents s).length)) := by
  obtain ⟨u, hu, hpu, hsu, hfu, hqu, -⟩ := enqueueAll_spec d hp hs
  have hr : RingHolds s u (contents s ++ d.take (s.cfg.cap - (contents s).length)) :=
    ⟨hpu, hsu, hfu, by rw [hqu, contents_length]⟩
  unfold execRbEnqseq at h
  rw [hu] at h
  dsimp only at h
  split at h <;> cases h <;> exact hr.finish _ _ _

theorem execRbDeq_ringHolds {s t : State} (hp : PointersOk s) (hs : StoreOk s) (h : execRbDeq s = .next t) :
    RingHolds s t ((contents s).drop 1) := by
  rcases execRbDeq_cases hp hs with ⟨hz, e⟩ | ⟨hpos, m, e, hm, hzero, hold⟩
  · cases e.symm.trans h
    have hnil : (contents s).drop 1 = contents s := by rw [contents_eq_nil hz]; rfl
    rw [hnil]
    exact (RingHolds.refl hp hs).finish _ _ _
  · cases e.symm.trans h
    refine (dropped_ringHolds hp hpos hm (fun j hj => ?_) fun a ha => hold a (ha 0 Nat.one_pos)).finish _ _ _
    rwa [Nat.lt_one_iff.1 hj]

theorem execRbClear_ringHolds {upto : Half} {s t : State} (hp : PointersOk s) (hs : StoreOk s)
    (h : execRbClear upto s = .next t) : RingHolds s t ((contents s).drop upto.toNat) := by
  obtain ⟨m, e, hm, hzero, hold⟩ := execRbClear_spec upto hp hs
  cases e.symm.trans h
  have hn : clearCount upto s ≤ s.size.toNat := by rw [clearCount_eq_min]; exact Nat.min_le_left _ _
  have hdrop : (contents s).drop upto.toNat = (contents s).drop (clearCount upto s) := by
    rw [List.drop_eq_drop_iff, clearCount_eq_min, contents_length]
    omega
  rw [hdrop]
  exact (dropped_ringHolds hp hn hm hzero hold).finish _ _ _

/-- What a command makes of the queue of R29 in a ring of `cap` bytes. -/
def queueAfter (cap : Nat) (q : List Byte) : Instr → List Byte
  | .rbEnq b => offer cap q b
  | .rbEnqseq d => q ++ d.take (cap - q.length)
  | .rbDeq => q.drop 1
  | .rbClear upto => q.drop upto.toNat
  | .reset => []
  | _ => q

theorem queueAfter_of_not_writesRing (cap : Nat) (q : List Byte) {i : Instr} (h : writesRing i = false) :
    queueAfter cap q i = q := by
  cases i
  case reset | rbEnq | rbDeq | rbEnqseq | rbClear => cases h
  all_goals rfl

/-- The simulation step: a command keeps the ring's invariants and does to the contents what it does to the queue. -/
theorem exec_ringHolds {i : Instr} {s t : State} (hp : PointersOk s) (hs : StoreOk s) (h : exec i s = .next t) :
    RingHolds s t (queueAfter s.cfg.cap (contents s) i) := by
  cases hw : writesRing i with
  | false =>
    rw [queueAfter_of_not_writesRing _ _ hw]
    exact (RingHolds.refl hp hs).of_sameRing (exec_sameRing hw h)
  | true =>
    cases i <;> simp only [writesRing, Bool.false_eq_true] at hw
    case reset => cases h; exact (resetState_ringHolds hp).finish _ _ _
    case rbEnq b => exact execRbEnq_ringHolds hp hs h
    case rbDeq => exact execRbDeq_ringHolds hp hs h
    case rbEnqseq d => exact execRbEnqseq_ringHolds hp hs h
    case rbClear upto => exact execRbClear_ringHolds hp hs h

/-- Settles O44, by the simulation step of a command and that of a push. -/
theorem ringRefinesAQueue : Obligations.RingRefinesAQueue := by
  intro s t hp hs
  refine ⟨fun i h => ?_, fun b h => (pushByte_ringHolds hp hs h).queue⟩
  have hq := (exec_ringHolds hp hs h).queue
  cases i <;> exact hq

/-! ### CPB and CTRL after a command (R34, R36) -/

theorem exec_cpbOk {i : Instr} {s t : State} (h : exec i s = .next t) (hc : CpbOk s) : CpbOk t := by
  by_cases hi : i = .reset
  · subst hi
    cases h
    exact decode_nil
  · obtain ⟨-, -, -, -, hcpb, -⟩ := exec_outside hi h
    rwa [CpbOk, hcpb]

theorem exec_ctrlOk {i : Instr} {s t : State} (h : exec i s = .next t) (hc : CtrlOk s) : CtrlOk t := by
  by_cases hi : i = .reset
  · subst hi
    cases h
    exact Nat.zero_le _
  · by_cases hsame : t.ctrl = s.ctrl
    · rwa [CtrlOk, hsame]
    · obtain ⟨a, rfl⟩ := exec_writes hi h State.ctrl (withWritten_ctrl i s t) (hne := hsame)
      cases h
      exact (BitVec.toNat_and a 3#8).trans_le Nat.and_le_right

/-! ### Every step keeps the machine's invariant -/

/-- The ring's part of the invariant from what a step leaves of the ring. -/
theorem RingHolds.inv {s t : State} {q : List Byte} (h : RingHolds s t q) (hi : Inv s) (hcfg : t.cfg = s.cfg)
    (hctrl : CtrlOk t) (hcpb : CpbOk t) : Inv t := by
  obtain ⟨hl, -, -, hf, -, -⟩ := hi
  exact ⟨hcfg ▸ hl, h.pointers, h.store, h.free hf, hctrl, hcpb⟩

theorem exec_inv {i : Instr} {s t : State} (hi : Inv s) (h : exec i s = .next t) : Inv t := by
  have ⟨_, hp, hs, _, hctrl, hcpb⟩ := hi
  exact (exec_ringHolds hp hs h).inv hi (exec_cfg h) (exec_ctrlOk h hctrl) (exec_cpbOk h hcpb)

theorem pushByte_inv {b : Byte} {s t : State} (hi : Inv s) (h : pushByte b s = .next t) : Inv t := by
  have ⟨_, hp, hs, _, hctrl, hcpb⟩ := hi
  have e := pushByte_next h
  refine (pushByte_ringHolds hp hs h).inv hi (pushByte_cfg h) ?_ ?_
  · rwa [e]
  · rwa [e]

theorem resetState_inv {s : State} (hi : Inv s) : Inv (resetState s) :=
  (resetState_ringHolds hi.2.1).inv hi rfl (Nat.zero_le _) decode_nil

theorem readResponse_inv {s t : State} (hi : Inv s) (h : readResponse s = .next t) : Inv t := by
  unfold readResponse at h
  split at h <;> cases h <;> exact hi

/-- With a command that is not yet complete in CPB, the arriving byte is the last one that is taken: a command that it
completes leaves CPB empty. -/
theorem receiveByte_inv {b : Byte} {s t : State} (hi : Inv s) (h : receiveByte b s = .next t) : Inv t := by
  obtain ⟨hl, hp, hs, hf, hctrl, hcpb⟩ := hi
  have hrest := decode_append_rest b hcpb
  unfold receiveByte runParsed at h
  dsimp only at h
  split at h
  · next i rest hd =>
    rw [hd] at hrest
    obtain rfl : rest = [] := hrest
    refine exec_inv ?_ h
    exact ⟨hl, hp, hs, hf, hctrl, decode_nil⟩
  · next opc rest hd =>
    rw [hd] at hrest
    obtain rfl : rest = [] := hrest
    cases h
    exact ⟨hl, hp, hs, hf, hctrl, decode_nil⟩
  · next hd =>
    cases h
    exact ⟨hl, hp, hs, hf, hctrl, hd⟩

/-- No port event breaks the invariant. -/
theorem deliver_inv {e : PortEvent} {s t : State} (hi : Inv s) (h : deliver e s = .next t) : Inv t := by
  cases e with
  | cmdByte b => exact receiveByte_inv hi h
  | push b => exact pushByte_inv hi h
  | hostRead => exact readResponse_inv hi h
  | resetInput => cases h; exact resetState_inv hi

/-- Settles O48, event by event. -/
theorem everyStepKeepsTheInvariant : Obligations.EveryStepKeepsTheInvariant := by
  intro s t hi h
  have hl := step_next_legal h
  cases hin : s.inputs with
  | nil =>
    rw [step_idle hl hin] at h
    cases h
    exact hi
  | cons e es =>
    rw [step_event hl hin] at h
    exact deliver_inv (s := { s with inputs := es }) hi h

end Sys2Proof.Machine
end

section
/-! PROOFS. The statements of spec/20_memory.md: an interleaving of the ports is the run of its atomic steps in that
order (R56, R59), a push between the bytes of a command comes before it (R58), and the reading commands have no side effect
(R57). -/

namespace Sys2Proof

/-! ### What has been decoded stays decoded (R84) -/

/-- The same decoding with more bytes after it; an incomplete command stays incomplete. -/
def Decoded.followedBy (q : List Byte) : Decoded → Decoded
  | .cmd i rest => .cmd i (rest ++ q)
  | .illegal opc rest => .illegal opc (rest ++ q)
  | .incomplete => .incomplete

theorem Decoded.followedBy_eq_incomplete {q : List Byte} {d : Decoded} :
    d.followedBy q = .incomplete ↔ d = .incomplete := by
  cases d <;> simp [followedBy]

section Append

variable {r : List Byte} (q : List Byte)

theorem takeA_append {mk : Byte → Instr} (h : takeA r mk ≠ .incomplete) :
    takeA (r ++ q) mk = (takeA r mk).followedBy q := by
  match r, h with
  | [], h => exact absurd rfl h
  | _ :: _, _ => rfl

theorem takeB_append {mk : Half → Instr} (h : takeB r mk ≠ .incomplete) :
    takeB (r ++ q) mk = (takeB r mk).followedBy q := by
  match r, h with
  | [], h | [_], h => exact absurd rfl h
  | _ :: _ :: _, _ => rfl

theorem takeTail_append {n : Nat} {mk : List Byte → Instr} (h : takeTail n r mk ≠ .incomplete) :
    takeTail n (r ++ q) mk = (takeTail n r mk).followedBy q := by
  have hn : n ≤ r.length := by rwa [Ne, takeTail_incomplete, Nat.not_lt] at h
  have hn' : n ≤ (r ++ q).length := hn.trans (by simp)
  simp only [takeTail, if_pos hn, if_pos hn', Decoded.followedBy, List.take_append_of_le_length hn,
    List.drop_append_of_le_length hn]

theorem takeBTail_append {mk : List Byte → Instr} (h : takeBTail r mk ≠ .incomplete) :
    takeBTail (r ++ q) mk = (takeBTail r mk).followedBy q := by
  match r, h with
  | [], h | [_], h => exact absurd rfl h
  | _ :: _ :: _, h => exact takeTail_append q h

theorem takeABTail_append {mk : Half → List Byte → Instr} (h : takeABTail r mk ≠ .incomplete) :
    takeABTail (r ++ q) mk = (takeABTail r mk).followedBy q := by
  match r, h with
  | [], h | [_], h | [_, _], h => exact absurd rfl h
  | _ :: _ :: _ :: _, h => exact takeTail_append q h

theorem decodeOpcode_append {opc : Byte} (h : decodeOpcode opc r ≠ .incomplete) :
    decodeOpcode opc (r ++ q) = (decodeOpcode opc r).followedBy q := by
  obtain ⟨i, -, -, hd, -⟩ | ⟨mk, -, hd, -⟩ | ⟨mk, -, hd, -⟩ | ⟨mk, -, hd, -⟩ | ⟨mk, -, hd, -⟩ | ⟨hd, -⟩ :=
    decodeOpcode_cases opc <;> rw [hd] at h <;> rw [hd, hd]
  · rfl
  · exact takeA_append q h
  · exact takeB_append q h
  · exact takeBTail_append q h
  · exact takeABTail_append q h
  · rfl

/-- Bytes that arrive after a complete command do not change how it is read. -/
theorem decode_append (h : decode r ≠ .incomplete) : decode (r ++ q) = (decode r).followedBy q := by
  match r, h with
  | [], h => exact absurd rfl h
  | _ :: _, h => exact decodeOpcode_append q h

end Append

/-- While a command is incomplete, so was every part of it that had arrived before. -/
theorem decode_incomplete_of_append {p q : List Byte} (h : decode (p ++ q) = .incomplete) : decode p = .incomplete := by
  by_contra hp
  rw [decode_append q hp, Decoded.followedBy_eq_incomplete] at h
  exact hp h

/-! ### The bytes of one command (R81 to R84) -/

theorem takeBTail_exact {p : List Byte} (hp : p.length ≤ 65535) (rest : List Byte) (mk : List Byte → Instr) :
    takeBTail (hiByte (BitVec.ofNat 16 p.length) :: loByte (BitVec.ofNat 16 p.length) :: (p ++ rest)) mk =
      .cmd (mk p) rest := by
  refine takeTail_exact rest mk ?_
  rw [be16_hiByte_loByte, BitVec.toNat_ofNat, Nat.mod_eq_of_lt (by omega)]

theorem takeABTail_exact {p : List Byte} (hp : p.length ≤ 255) (addr : Half) (rest : List Byte)
    (mk : Half → List Byte → Instr) :
    takeABTail (BitVec.ofNat 8 p.length :: hiByte addr :: loByte addr :: (p ++ rest)) mk = .cmd (mk addr p) rest := by
  have hn : p.length = (BitVec.ofNat 8 p.length).toNat := by rw [BitVec.toNat_ofNat, Nat.mod_eq_of_lt (by omega)]
  refine (takeTail_exact rest _ hn).trans ?_
  rw [be16_hiByte_loByte]

/-- A well-formed command is read back from its bytes, whatever follows them. -/
theorem decode_encode_append {i : Instr} (hw : i.wellFormed = true) (rest : List Byte) :
    decode (encode i ++ rest) = .cmd i rest := by
  cases i
  case send addr p => exact takeABTail_exact (by simpa [Instr.wellFormed] using hw) addr rest .send
  case recv d => exact takeBTail_exact (by simpa [Instr.wellFormed] using hw) rest .recv
  case rbEnqseq d => exact takeBTail_exact (by simpa [Instr.wellFormed] using hw) rest .rbEnqseq
  case rbPeek x | rbCopy x | rbClear x =>
    show Decoded.cmd _ rest = _
    rw [be16_hiByte_loByte]
  all_goals rfl

/-- A command runs on its last byte and on no earlier one. -/
theorem decode_incomplete_before_last_byte {i : Instr} {p q : List Byte} (hw : i.wellFormed = true)
    (he : encode i = p ++ q) (hq : q ≠ []) : decode p = .incomplete := by
  by_contra hp
  have hi : decode (p ++ q) = .cmd i [] := by simpa [he] using decode_encode_append hw []
  rw [decode_append q hp] at hi
  cases hd : decode p with
  | cmd j rest => simp [hd, Decoded.followedBy, hq] at hi
  | illegal opc rest => simp [hd, Decoded.followedBy] at hi
  | incomplete => exact hp hd

theorem encode_ne_nil (i : Instr) : encode i ≠ [] := by
  cases i <;> exact List.cons_ne_nil _ _

end Sys2Proof

namespace Sys2Proof.Machine

/-! ### The steps in which a command arrives (R56, R84) -/

/-- The state with `p` as what has arrived of a command and other events still to come. -/
abbrev withArriving (p : List Byte) (es : List PortEvent) (s : State) : State := { s with cpb := p, inputs := es }

theorem outsideRing_withArriving (p : List Byte) (es : List PortEvent) : OutsideRing (withArriving p es) :=
  ⟨fun _ => rfl, fun _ _ _ _ _ _ => rfl⟩

/-- A byte that completes a command runs it. -/
theorem step_cmdByte_command {s : State} {b : Byte} {es : List PortEvent} {i : Instr} {rest : List Byte}
    (hl : s.cfg.Legal) (hi : s.inputs = .cmdByte b :: es) (hd : decode (s.cpb ++ [b]) = .cmd i rest) :
    step s = exec i (withArriving rest es s) := by
  rw [step_cmdByte hl hi]
  unfold runParsed
  rw [hd]

/-- A push is enqueued whatever has arrived of a command, and disturbs none of it. -/
theorem step_push_withArriving {s : State} (p : List Byte) (b : Byte) (es : List PortEvent) (hl : s.cfg.Legal) :
    step (withArriving p (.push b :: es) s) = mapNext (withArriving p es) (pushByte b s) :=
  (step_push (s := withArriving p (.push b :: es) s) hl rfl).trans ((outsideRing_withArriving p es).pushByte b s)

/-- While the command stays incomplete, each step moves one byte into CPB. -/
theorem stepRun_cmdBytes_incomplete (p : List Byte) {es : List PortEvent} : ∀ {s : State}, s.cfg.Legal →
    s.inputs = p.map PortEvent.cmdByte ++ es → decode (s.cpb ++ p) = .incomplete →
    stepRun p.length s = .next (withArriving (s.cpb ++ p) es s) := by
  induction p with
  | nil =>
    intro s _ hi _
    rw [List.append_nil, ← show s.inputs = es from hi]
    rfl
  | cons b r ih =>
    intro s hl hi hd
    rw [List.append_cons] at hd ⊢
    have hstep := incompleteCommandWaitsInCpb s b _ hl hi (decode_incomplete_of_append hd)
    rw [List.length_cons, stepRun_succ, hstep]
    exact ih (s := withArriving (s.cpb ++ [b]) (r.map .cmdByte ++ es) s) hl rfl hd

/-- When the bytes still to arrive complete the command in CPB, the run of their steps is the command. -/
theorem stepRun_cmdBytes_command {s : State} {i : Instr} {q : List Byte} {es : List PortEvent} (hl : s.cfg.Legal)
    (hw : i.wellFormed = true) (he : encode i = s.cpb ++ q) (hq : q ≠ []) (hi : s.inputs = q.map .cmdByte ++ es) :
    stepRun q.length s = exec i (withArriving [] es s) := by
  obtain ⟨r, b, rfl⟩ := (List.eq_nil_or_concat' q).resolve_left hq
  rw [← List.append_assoc] at he
  have hwait : decode (s.cpb ++ r) = .incomplete := decode_incomplete_before_last_byte hw he (List.cons_ne_nil b [])
  have hdone : decode (s.cpb ++ r ++ [b]) = .cmd i [] := by
    rw [← he, ← List.append_nil (encode i)]
    exact decode_encode_append hw []
  rw [List.length_append, stepRun_add,
    stepRun_cmdBytes_incomplete (es := .cmdByte b :: es) r hl (by simpa using hi) hwait]
  exact (stepRun_one _).trans (step_cmdByte_command hl rfl hdone)

/-! ### Runs of atomic steps (R59) -/

/-- The events of one atomic step, from an empty CPB, run as that step. -/
theorem stepRun_portEvents {s : State} {a : AtomicStep} {es : List PortEvent} (hl : s.cfg.Legal) (hc : s.cpb = [])
    (hw : ∀ i, a = .command i → i.wellFormed = true) (hi : s.inputs = portEvents a ++ es) :
    stepRun (portEvents a).length s = atomic a (withInputs es s) := by
  cases a with
  | command i =>
    have hlen : (portEvents (.command i)).length = (encode i).length := List.length_map _
    have hself : withArriving [] es s = withInputs es s := by rw [← hc]
    rw [hlen, stepRun_cmdBytes_command hl (hw i rfl) (by rw [hc]; rfl) (encode_ne_nil i) hi, hself]
    rfl
  | push b => exact (stepRun_one s).trans (step_push hl hi)

/-- No atomic step reads or writes the events still to come. -/
theorem atomic_withInputs (es : List PortEvent) (a : AtomicStep) (s : State) :
    atomic a (withInputs es s) = mapNext (withInputs es) (atomic a s) := by
  cases a with
  | command i => exact exec_withInputs es i s
  | push b => exact pushByte_withInputs es b s

/-- An atomic step keeps the parameters and an empty CPB. -/
theorem atomic_keeps {a : AtomicStep} {s t : State} (h : atomic a s = .next t) :
    t.cfg = s.cfg ∧ (s.cpb = [] → t.cpb = []) := by
  cases a with
  | command i =>
    refine ⟨exec_cfg h, fun hc => ?_⟩
    by_cases hr : i = .reset
    · subst hr
      cases h
      rfl
    · obtain ⟨-, -, -, -, hcpb, -⟩ := exec_outside hr h
      exact hcpb.trans hc
  | push b =>
    rw [pushByte_next h]
    exact ⟨rfl, id⟩

/-- Settles O11, by induction over the schedule: the events of its first step run as that step, which leaves the later
events as they are and CPB empty. -/
theorem portScheduleIsTheAtomicRun : Obligations.PortScheduleIsTheAtomicRun := by
  intro as
  induction as with
  | nil =>
    intro s es _ _ _ hi
    rw [← show s.inputs = es from hi]
    rfl
  | cons a r ih =>
    intro s es hl hc hw hi
    rw [List.flatMap_cons, List.append_assoc] at hi
    have hrun : stepRun (portEvents a).length s = mapNext (withInputs (r.flatMap portEvents ++ es)) (atomic a s) :=
      (stepRun_portEvents hl hc (fun i e => hw i (e ▸ List.mem_cons_self)) hi).trans (atomic_withInputs _ a s)
    rw [List.flatMap_cons, List.length_append, stepRun_add, hrun]
    unfold atomicRun
    rw [atomic_withInputs es a s]
    cases ha : atomic a s with
    | next t =>
      obtain ⟨hcfg, hcpb⟩ := atomic_keeps ha
      exact ih (withInputs (r.flatMap portEvents ++ es) t) es (hcfg ▸ hl) (hcpb hc)
        (fun i h => hw i (List.mem_cons_of_mem a h)) rfl
    | fault f => rfl
    | refused f => rfl

/-! ### A push between the bytes of a command (R58, R243) -/

/-- Settles O12: a push does not see what has arrived of the command and does not touch it, so the rest of the bytes
complete the command in the state that the push left. -/
theorem pushBetweenCommandBytesComesFirst : Obligations.PushBetweenCommandBytesComesFirst := by
  intro s i p q b es hl hc hw he _ hq hi
  have hwait : stepRun p.length s = .next (withArriving p (.push b :: (q.map .cmdByte ++ es)) s) := by
    have hd : decode (s.cpb ++ p) = .incomplete := by rw [hc]; exact decode_incomplete_before_last_byte hw he hq
    simpa [hc] using stepRun_cmdBytes_incomplete p hl (by simpa using hi) hd
  have hpush : stepRun 1 (withArriving p (.push b :: (q.map .cmdByte ++ es)) s) =
      mapNext (withArriving p (q.map .cmdByte ++ es)) (pushByte b (withInputs es s)) :=
    (stepRun_one _).trans (step_push_withArriving (s := withInputs es s) p b _ hl)
  rw [stepRun_add, stepRun_add, hwait]
  simp only [hpush, atomicRun, atomic]
  cases ht : pushByte b (withInputs es s) with
  | next t =>
    have hcfg : t.cfg = s.cfg := (pushByte_cfg ht :)
    have hself : withArriving [] es t = t := by rw [pushByte_next ht, ← hc]
    have hrun : stepRun q.length (withArriving p (q.map .cmdByte ++ es) t) = exec i (withArriving [] es t) :=
      stepRun_cmdBytes_command (hcfg ▸ hl) hw he hq rfl
    simp only [mapNext]
    rw [hrun, hself]
    cases exec i t <;> rfl
  | fault f => rfl
  | refused f => rfl

/-! ### Commands that only answer (R57) -/

/-- From `s` the command appends one and the same response to RSPQ, whatever RSPQ holds, and changes nothing else. -/
def OnlyAnswers (i : Instr) (s : State) : Prop :=
  ∃ st r tl, ∀ q, exec i { s with rspq := q } = .next (finish st r tl { s with rspq := q })

/-- Such a command, repeated at once, appends its response again. -/
theorem OnlyAnswers.repeats {i : Instr} {s : State} (h : OnlyAnswers i s) :
    ∃ r : List Byte, exec i s = .next { s with rspq := s.rspq ++ r } ∧
      exec i { s with rspq := s.rspq ++ r } = .next { s with rspq := s.rspq ++ r ++ r } := by
  obtain ⟨st, r, tl, h⟩ := h
  exact ⟨response st r tl, h s.rspq, h (s.rspq ++ response st r tl)⟩

theorem ckTest_onlyAnswers (s : State) : OnlyAnswers .ckTest s := by
  by_cases h : s.ckAcc ≠ 0xFF
  · exact ⟨.checksumMismatch, 0, [], fun _ => if_pos h⟩
  · exact ⟨.ok, 0, [], fun _ => if_neg h⟩

/-- Under the pointer invariant RB.PEEK reads a slot that exists. -/
theorem rbPeek_onlyAnswers {s : State} (hp : PointersOk s) (off : Half) : OnlyAnswers (.rbPeek off) s := by
  by_cases he : ringEmpty s = true
  · exact ⟨.bufferUnderrun, 0, [], fun _ => if_pos he⟩
  by_cases ho : s.size.toNat ≤ off.toNat
  · exact ⟨.outOfRange, 0, [], fun _ => (if_neg he).trans (if_pos ho)⟩
  refine ⟨.ok, zext16 (Memory.read s.store (phys s off.toNat)), [], fun q => ((if_neg he).trans (if_neg ho)).trans ?_⟩
  rw [readSlot_of_lt (phys_lt (s := { s with rspq := q }) hp.1 off.toNat)]
  rfl

/-- Under the pointer invariant RB.COPY reads slots that exist. -/
theorem rbCopy_onlyAnswers {s : State} (hp : PointersOk s) (start : Half) : OnlyAnswers (.rbCopy start) s := by
  by_cases he : ringEmpty s = true
  · exact ⟨.bufferUnderrun, 0, [], fun _ => if_pos he⟩
  by_cases ho : s.size.toNat ≤ start.toNat
  · exact ⟨.outOfRange, 0, [], fun _ => (if_neg he).trans (if_pos ho)⟩
  refine ⟨.ok, s.size, (List.range s.size.toNat).map fun j => Memory.read s.store (phys s (start.toNat + j)),
    fun q => ((if_neg he).trans (if_neg ho)).trans ?_⟩
  rw [readRun_spec (s := { s with rspq := q }) hp.1]
  rfl

/-- Settles O55: each listed command only answers. -/
theorem readsRepeatWithoutSideEffect : Obligations.ReadsRepeatWithoutSideEffect := by
  intro s x hp i hi
  refine OnlyAnswers.repeats ?_
  revert i
  simp only [List.forall_mem_cons]
  exact ⟨rbPeek_onlyAnswers hp x, rbCopy_onlyAnswers hp x, ⟨.ok, s.size, [], fun _ => rfl⟩,
    ⟨.ok, s.head, [], fun _ => rfl⟩, ⟨.ok, s.tail, [], fun _ => rfl⟩, ⟨.ok, flagBit (ringEmpty s), [], fun _ => rfl⟩,
    ⟨.ok, flagBit (ringFull s), [], fun _ => rfl⟩, ⟨.ok, statusView s, [], fun _ => rfl⟩,
    ⟨.ok, zext16 (readCtrl s), [], fun _ => rfl⟩, ⟨.ok, zext16 (complement s.ckAcc), [], fun _ => rfl⟩,
    ⟨.ok, zext16 s.ckAcc, [], fun _ => rfl⟩, ckTest_onlyAnswers s, by simp⟩

end Sys2Proof.Machine
end

section
/-! PROOFS. The statements of spec/30_encoding.md: decoder and encoder are inverse to each other (R81 to R84), the decoder
waits exactly for a command's length (R84, R90), the illegal opcodes (R85), the step that runs a command, and the one
response of every command (R86, R87). -/

namespace Sys2Proof

/-! ### What a decoded command says of its bytes (R81 to R84) -/

/-- Settles O1, which is `decode_encode_append`. -/
theorem decodeReadsBackEveryCommand : Obligations.DecodeReadsBackEveryCommand :=
  fun _ rest hw => decode_encode_append hw rest

section Inversion

variable {r rest : List Byte} {i : Instr}

theorem takeA_cmd {mk : Byte → Instr} (h : takeA r mk = .cmd i rest) : ∃ a, r = a :: rest ∧ i = mk a := by
  match r, h with
  | [], h => cases h
  | a :: _, h => cases h; exact ⟨a, rfl, rfl⟩

theorem takeB_cmd {mk : Half → Instr} (h : takeB r mk = .cmd i rest) :
    ∃ b, r = hiByte b :: loByte b :: rest ∧ i = mk b := by
  match r, h with
  | [], h | [_], h => cases h
  | hi :: lo :: _, h => cases h; exact ⟨be16 hi lo, by rw [hiByte_be16, loByte_be16], rfl⟩

/-- The two bytes before a tail are its length, which they can hold. -/
theorem takeBTail_cmd {mk : List Byte → Instr} (h : takeBTail r mk = .cmd i rest) :
    ∃ p, p.length ≤ 65535 ∧ i = mk p ∧
      r = hiByte (BitVec.ofNat 16 p.length) :: loByte (BitVec.ofNat 16 p.length) :: (p ++ rest) := by
  match r, h with
  | [], h | [_], h => cases h
  | hi :: lo :: _, h =>
    obtain ⟨p, hp, rfl, rfl⟩ := takeTail_cmd h
    refine ⟨p, ?_, rfl, ?_⟩
    · exact hp.trans_le (Nat.le_of_lt_succ (be16 hi lo).isLt)
    · rw [hp, BitVec.ofNat_toNat, BitVec.setWidth_eq, hiByte_be16, loByte_be16]

/-- The first byte before a tail is its length, which it can hold. -/
theorem takeABTail_cmd {mk : Half → List Byte → Instr} (h : takeABTail r mk = .cmd i rest) :
    ∃ a p, p.length ≤ 255 ∧ i = mk a p ∧ r = BitVec.ofNat 8 p.length :: hiByte a :: loByte a :: (p ++ rest) := by
  match r, h with
  | [], h | [_], h | [_, _], h => cases h
  | n :: hi :: lo :: _, h =>
    obtain ⟨p, hp, rfl, rfl⟩ := takeTail_cmd h
    refine ⟨be16 hi lo, p, ?_, rfl, ?_⟩
    · exact hp.trans_le (Nat.le_of_lt_succ n.isLt)
    · rw [hp, BitVec.ofNat_toNat, BitVec.setWidth_eq, hiByte_be16, loByte_be16]

theorem decodeOpcode_cmd {opc : Byte} (h : decodeOpcode opc r = .cmd i rest) :
    i.wellFormed = true ∧ opc :: r = encode i ++ rest := by
  obtain ⟨j, he, hw, hd, -⟩ | ⟨mk, he, hd, -⟩ | ⟨mk, he, hd, -⟩ | ⟨mk, he, hd, -⟩ | ⟨mk, he, hd, -⟩ | ⟨hd, -⟩ :=
    decodeOpcode_cases opc <;> rw [hd] at h
  · cases h
    exact ⟨hw, by rw [he]; rfl⟩
  · obtain ⟨a, rfl, rfl⟩ := takeA_cmd h
    exact ⟨(he a).2, by rw [(he a).1]; rfl⟩
  · obtain ⟨b, rfl, rfl⟩ := takeB_cmd h
    exact ⟨(he b).2, by rw [(he b).1]; rfl⟩
  · obtain ⟨p, hp, rfl, rfl⟩ := takeBTail_cmd h
    exact ⟨(he p).2.2 hp, by rw [(he p).1]; rfl⟩
  · obtain ⟨a, p, hp, rfl, rfl⟩ := takeABTail_cmd h
    exact ⟨(he a p).2.2 hp, by rw [(he a p).1]; rfl⟩
  · cases h

end Inversion

/-- Settles O2, by the format of the opcode byte. -/
theorem decodedBytesAreTheEncoding : Obligations.DecodedBytesAreTheEncoding := by
  intro bs rest i h
  cases bs with
  | nil => cases h
  | cons opc r => exact decodeOpcode_cmd h

/-! ### How long the decoder waits (R84, R90) -/

theorem takeA_incomplete {r : List Byte} {mk : Byte → Instr} : takeA r mk = .incomplete ↔ r.length < 1 := by
  match r with
  | [] => simp [takeA]
  | _ :: _ => simp [takeA]

theorem takeB_incomplete {r : List Byte} {mk : Half → Instr} : takeB r mk = .incomplete ↔ r.length < 2 := by
  match r with
  | [] | [_] => simp [takeB]
  | _ :: _ :: _ => simp [takeB]

theorem takeBTail_incomplete {r : List Byte} {mk : List Byte → Instr} :
    takeBTail r mk = .incomplete ↔ r.length < 2 + (be16 (headerByte r 0) (headerByte r 1)).toNat := by
  match r with
  | [] | [_] => exact iff_of_true rfl (Nat.lt_add_right _ (by simp))
  | hi :: lo :: rest =>
    refine takeTail_incomplete.trans ?_
    show rest.length < (be16 hi lo).toNat ↔ rest.length + 2 < 2 + (be16 hi lo).toNat
    omega

theorem takeABTail_incomplete {r : List Byte} {mk : Half → List Byte → Instr} :
    takeABTail r mk = .incomplete ↔ r.length < 3 + (headerByte r 0).toNat := by
  match r with
  | [] | [_] | [_, _] => exact iff_of_true rfl (Nat.lt_add_right _ (by simp))
  | n :: _ :: _ :: rest =>
    refine takeTail_incomplete.trans ?_
    show rest.length < n.toNat ↔ rest.length + 3 < 3 + n.toNat
    omega

theorem headerByte_cons_succ (opc : Byte) (r : List Byte) (k : Nat) :
    headerByte (opc :: r) (k + 1) = headerByte r k := rfl

theorem decode_incomplete_iff (bs : List Byte) : decode bs = .incomplete ↔ bs.length < commandLength bs := by
  cases bs with
  | nil => exact iff_of_true rfl Nat.one_pos
  | cons opc r =>
    rw [decode_cons, List.length_cons]
    obtain ⟨i, -, -, hd, hn⟩ | ⟨mk, -, hd, hn⟩ | ⟨mk, -, hd, hn⟩ | ⟨mk, -, hd, hn⟩ | ⟨mk, -, hd, hn⟩ | ⟨hd, hn⟩ :=
      decodeOpcode_cases opc <;> rw [hd, hn]
    · simp
    · rw [takeA_incomplete]; omega
    · rw [takeB_incomplete]; omega
    · rw [takeBTail_incomplete, headerByte_cons_succ, headerByte_cons_succ]; omega
    · rw [takeABTail_incomplete, headerByte_cons_succ]; omega
    · simp

/-- R84's length of the command at the front is the length of its bytes. -/
theorem encode_length : ∀ i : Instr, Laws.EncodeLength.Statement i
  | .nop => Laws.EncodeLength.nop
  | .reset => Laws.EncodeLength.reset
  | .rdctrl => Laws.EncodeLength.rdctrl
  | .wrctrl a => Laws.EncodeLength.wrctrl a
  | .rdstat => Laws.EncodeLength.rdstat
  | .escInit => Laws.EncodeLength.escInit
  | .escPut b => Laws.EncodeLength.escPut b
  | .uneInit => Laws.EncodeLength.uneInit
  | .unePut b => Laws.EncodeLength.unePut b
  | .uneEnd => Laws.EncodeLength.uneEnd
  | .ckInit => Laws.EncodeLength.ckInit
  | .ckAdd b => Laws.EncodeLength.ckAdd b
  | .ckGet => Laws.EncodeLength.ckGet
  | .ckRaw => Laws.EncodeLength.ckRaw
  | .ckTest => Laws.EncodeLength.ckTest
  | .send addr p => Laws.EncodeLength.send addr p
  | .recv w => Laws.EncodeLength.recv w
  | .rbEnq b => Laws.EncodeLength.rbEnq b
  | .rbDeq => Laws.EncodeLength.rbDeq
  | .rbEnqseq d => Laws.EncodeLength.rbEnqseq d
  | .rbPeek off => Laws.EncodeLength.rbPeek off
  | .rbCopy start => Laws.EncodeLength.rbCopy start
  | .rbClear upto => Laws.EncodeLength.rbClear upto
  | .rbSize => Laws.EncodeLength.rbSize
  | .rbHead => Laws.EncodeLength.rbHead
  | .rbTail => Laws.EncodeLength.rbTail
  | .rbEmpty => Laws.EncodeLength.rbEmpty
  | .rbFull => Laws.EncodeLength.rbFull

theorem decode_cmd_length {bs rest : List Byte} {i : Instr} (h : decode bs = .cmd i rest) :
    (encode i).length = commandLength bs ∧ rest = bs.drop (commandLength bs) := by
  obtain ⟨hw, rfl⟩ := decodedBytesAreTheEncoding _ _ _ h
  have hn := encode_length i hw rest
  exact ⟨hn, by rw [← hn, List.drop_left]⟩

/-! ### Illegal opcodes (R85) -/

section NotIllegal

variable {r rest : List Byte} {opc : Byte}

theorem takeA_not_illegal {mk : Byte → Instr} : takeA r mk ≠ .illegal opc rest := by
  match r with
  | [] | _ :: _ => exact Decoded.noConfusion

theorem takeB_not_illegal {mk : Half → Instr} : takeB r mk ≠ .illegal opc rest := by
  match r with
  | [] | [_] | _ :: _ :: _ => exact Decoded.noConfusion

theorem takeBTail_not_illegal {mk : List Byte → Instr} : takeBTail r mk ≠ .illegal opc rest := by
  match r with
  | [] | [_] => exact Decoded.noConfusion
  | _ :: _ :: _ => exact takeTail_not_illegal

theorem takeABTail_not_illegal {mk : Half → List Byte → Instr} : takeABTail r mk ≠ .illegal opc rest := by
  match r with
  | [] | [_] | [_, _] => exact Decoded.noConfusion
  | _ :: _ :: _ :: _ => exact takeTail_not_illegal

/-- An opcode byte that is illegal before some bytes is illegal before all, and a command of one byte. -/
theorem decodeOpcode_illegal {opc' : Byte} (h : decodeOpcode opc' r = .illegal opc rest) :
    (∀ q, decodeOpcode opc' q = .illegal opc' q) ∧ ∀ q, commandLength (opc' :: q) = 1 := by
  obtain ⟨i, -, -, hd, -⟩ | ⟨mk, -, hd, -⟩ | ⟨mk, -, hd, -⟩ | ⟨mk, -, hd, -⟩ | ⟨mk, -, hd, -⟩ | hd :=
    decodeOpcode_cases opc'
  · exact absurd ((hd r).symm.trans h) Decoded.noConfusion
  · exact absurd ((hd r).symm.trans h) takeA_not_illegal
  · exact absurd ((hd r).symm.trans h) takeB_not_illegal
  · exact absurd ((hd r).symm.trans h) takeBTail_not_illegal
  · exact absurd ((hd r).symm.trans h) takeABTail_not_illegal
  · exact hd

end NotIllegal

theorem decode_illegal {bs rest : List Byte} {opc : Byte} (h : decode bs = .illegal opc rest) :
    commandLength bs = 1 ∧ bs = opc :: rest := by
  cases bs with
  | nil => cases h
  | cons opc' r =>
    obtain ⟨hd, hn⟩ := decodeOpcode_illegal h
    cases (hd r).symm.trans h
    exact ⟨hn _, rfl⟩

/-- Settles O3: the wait by the format of the opcode byte, and the length of a decoded command by that of its
encoding. -/
theorem decoderWaitsForTheWholeCommand : Obligations.DecoderWaitsForTheWholeCommand :=
  fun bs => ⟨decode_incomplete_iff bs, fun _ _ h => decode_cmd_length h, fun _ _ h => decode_illegal h⟩

/-- R85's list, for an opcode byte with nothing after it. -/
theorem decode_singleton_illegal_iff : ∀ opc : Byte, decode [opc] = .illegal opc [] ↔
    (0x05 ≤ opc ∧ opc ≤ 0x0F) ∨ (0x12 ≤ opc ∧ opc ≤ 0x17) ∨ (0x1B ≤ opc ∧ opc ≤ 0x1F) ∨
      (0x25 ≤ opc ∧ opc ≤ 0x2F) ∨ (0x32 ≤ opc ∧ opc ≤ 0x3F) ∨ 0x4B ≤ opc := by
  decide

theorem decode_cons_illegal_iff (opc : Byte) (r : List Byte) :
    decode (opc :: r) = .illegal opc r ↔ decode [opc] = .illegal opc [] :=
  ⟨fun h => (decodeOpcode_illegal h).1 [], fun h => (decodeOpcode_illegal h).1 r⟩

/-- R85's number of illegal opcodes. -/
theorem illegal_opcode_count :
    ((List.range 256).filter fun n =>
      decide (decode [BitVec.ofNat 8 n] = .illegal (BitVec.ofNat 8 n) [])).length = 228 := by
  rfl

/-! ### Table words -/

theorem headerByte_append_zeros (bs : List Byte) (n k : Nat) :
    headerByte (bs ++ List.replicate n 0) k = headerByte bs k := by
  unfold headerByte
  rw [List.getElem?_append]
  split
  · rfl
  · next h =>
    rw [List.getElem?_eq_none (Nat.le_of_not_lt h), List.getElem?_replicate]
    split <;> rfl

theorem headerByte_take {bs : List Byte} {n k : Nat} (h : k < n) : headerByte (bs.take n) k = headerByte bs k := by
  unfold headerByte
  rw [List.getElem?_take_of_lt h]

theorem commandLength_pos (bs : List Byte) : 0 < commandLength bs := by
  unfold commandLength
  split <;> omega

/-- The command length is read within the command: only the bytes it counts matter (R84). -/
theorem commandLength_congr {bs cs : List Byte} (h : ∀ k, k < commandLength bs → headerByte cs k = headerByte bs k) :
    commandLength cs = commandLength bs := by
  have h0 := h 0 (commandLength_pos bs)
  unfold commandLength at h ⊢
  rw [h0]
  split at h <;> try rfl
  · rw [h 1 (by omega), h 2 (by omega)]
  · rw [h 1 (by omega), h 2 (by omega)]
  · rw [h 1 (by omega)]

/-- A table word's bytes are one command's, as its length rule counts them. -/
theorem tableBytes_length (nbits w : Nat) : (tableBytes nbits w).length = commandLength (tableBytes nbits w) := by
  have hn : commandLength (tableBytes nbits w) = commandLength (bytesOf (nbits / 8) w) :=
    commandLength_congr fun k hk => (headerByte_take hk).trans (headerByte_append_zeros _ _ k)
  rw [hn]
  simp [tableBytes]
  omega

theorem decodeTableWord_eq_some {nbits w : Nat} {i : Instr} (h : decodeTableWord nbits w = some i) :
    decode (tableBytes nbits w) = .cmd i [] := by
  unfold decodeTableWord at h
  split at h
  · next j rest hd =>
    cases h
    obtain ⟨-, hrest⟩ := decode_cmd_length hd
    rw [hd, hrest, ← tableBytes_length, List.drop_length]
  · cases h
  · cases h

end Sys2Proof

namespace Sys2Proof.Machine

/-! ### The step that runs a command or answers an illegal opcode (R84, R85) -/

theorem runParsed_illegal {s : State} {opc : Byte} {rest : List Byte} (h : decode s.cpb = .illegal opc rest) :
    runParsed s = .next { s with cpb := rest, rspq := s.rspq ++ [0x01, 0x00, 0x00] } := by
  unfold runParsed
  rw [h]
  rfl

/-- Settles O4: the ranges by evaluating each opcode byte alone, and what follows it does not matter. -/
theorem illegalOpcodesAnswerIllegalCommand : Obligations.IllegalOpcodesAnswerIllegalCommand := by
  refine ⟨fun opc r => (decode_cons_illegal_iff opc r).trans (decode_singleton_illegal_iff opc), illegal_opcode_count,
    ?_⟩
  intro s opc es hl hc hi hd
  rw [step_cmdByte hl hi, runParsed_illegal (opc := opc) (rest := []) (by rw [hc]; exact hd), ← hc]

/-- Settles O6, which is `step_cmdByte_command`. -/
theorem stepRunsTheDecodedCommand : Obligations.StepRunsTheDecodedCommand :=
  fun _ _ _ _ _ hl hi hd => step_cmdByte_command hl hi hd

/-- Settles O13: the placed bytes are one whole command, whose last byte is the next event. -/
theorem placedTableWordRunsNext : Obligations.PlacedTableWordRunsNext := by
  intro s nbits w i hl h
  have hd := decodeTableWord_eq_some h
  have hne : tableBytes nbits w ≠ [] := fun e => by rw [e] at hd; cases hd
  have hlast : (tableBytes nbits w).dropLast ++ [(tableBytes nbits w).getLastD 0] = tableBytes nbits w := by
    rw [List.getLastD_eq_getLast?, List.getLast?_eq_getLast_of_ne_nil hne]
    exact List.dropLast_append_getLast hne
  exact step_cmdByte_command (s := s.withFetchWord nbits w) hl rfl ((congrArg decode hlast).trans hd)

/-- Settles O5, by evaluating the decoder on each of the vectors' byte strings. -/
theorem specWordsDecode : Obligations.SpecWordsDecode := by
  unfold Obligations.SpecWordsDecode
  decide

/-! ### Tails fit their RESULT (R8, R86) -/

theorem escByte_length_le (b : Byte) : (escByte b).length ≤ 2 := by
  unfold escByte
  split <;> simp

theorem flatMap_escByte_length_le (r : List Byte) : (r.flatMap escByte).length ≤ 2 * r.length := by
  induction r with
  | nil => exact Nat.zero_le _
  | cons b r ih =>
    have := escByte_length_le b
    rw [List.flatMap_cons, List.length_append, List.length_cons]
    omega

theorem escape_length_le (s : List Byte) : (escape s).length ≤ 2 * s.length := by
  cases s with
  | nil => exact Nat.zero_le _
  | cons b r =>
    have := flatMap_escByte_length_le r
    rw [escape_cons, List.length_cons, List.length_cons]
    omega

theorem unescapeRest_length_le {s u : List Byte} (h : unescapeRest s = some u) : u.length ≤ s.length := by
  fun_induction unescapeRest s generalizing u with
  | case1 => cases h; rfl
  | case2 => cases h
  | case3 => cases h; rfl
  | case4 c r ih =>
    obtain ⟨v, hv, rfl⟩ := Option.map_eq_some_iff.1 h
    exact Nat.succ_le_succ ((ih hv).trans (Nat.le_succ _))
  | case5 b c r hb ih =>
    obtain ⟨v, hv, rfl⟩ := Option.map_eq_some_iff.1 h
    exact Nat.succ_le_succ (ih hv)

theorem unescape_length_le {s u : List Byte} (h : unescape s = some u) : u.length ≤ s.length := by
  cases s with
  | nil => cases h; rfl
  | cons b r =>
    obtain ⟨v, hv, rfl⟩ := Option.map_eq_some_iff.1 h
    exact Nat.succ_le_succ (unescapeRest_length_le hv)

theorem frontChecks_none_length {n : Nat} {w : List Byte} (h : frontChecks n w = none) : w.length ≤ n := by
  unfold frontChecks at h
  split at h
  · cases h
  · next hn => exact Nat.le_of_not_lt hn

theorem frontChecks_ne_ok (n : Nat) (w : List Byte) : frontChecks n w ≠ some .ok := by
  unfold frontChecks
  split
  · decide
  · split
    · decide
    · split
      · decide
      · split <;> decide

/-- RECV's parse ends in a status other than OK, or in a frame no longer than the window, which fits RIN_SIZE. -/
theorem parseWindow_cases (n : Nat) (tolerant : Bool) (w : List Byte) :
    (∃ st, st ≠ .ok ∧ parseWindow n tolerant w = .rejected st) ∨
      ∃ u k, u.length ≤ n ∧ parseWindow n tolerant w = .accepted u k := by
  unfold parseWindow
  split
  · next st hst => exact .inl ⟨st, fun e => frontChecks_ne_ok n w (e ▸ hst), rfl⟩
  · next hfront =>
    split
    · exact .inl ⟨_, by decide, rfl⟩
    · next u hu =>
      split
      · exact .inl ⟨_, by decide, rfl⟩
      · split
        · exact .inl ⟨_, by decide, rfl⟩
        · exact .inr ⟨u, _, (unescape_length_le hu).trans (frontChecks_none_length hfront), rfl⟩

/-! ### One response for every command (R86, R87) -/

theorem Status.code_mem (st : Status) : st.code ∈
    ([0x00, 0x01, 0x02, 0x10, 0x11, 0x12, 0x13, 0x14, 0x18, 0x20, 0x21, 0x22] : List Byte) := by
  cases st <;> decide

theorem Status.code_eq_zero_iff (st : Status) : st.code = 0x00 ↔ st = .ok := by
  cases st <;> decide

/-- R86: the length of an OK response's tail, from the command and RESULT. -/
def okTailLength (res : Half) : Instr → Nat
  | .escPut _ | .unePut _ | .send _ _ | .rbCopy _ => res.toNat
  | .recv _ => 2 + res.toNat
  | _ => 0

/-- In `t`, RSPQ is `q` and one response to the command `i` after it. -/
def Responds (i : Instr) (q : List Byte) (t : State) : Prop :=
  ∃ st res tl, t.rspq = q ++ response st res tl ∧ (st ≠ .ok → tl = []) ∧ (st = .ok → tl.length = okTailLength res i)

section Responds

variable {i : Instr} {q : List Byte} {t : State}

theorem Responds.of_ok {res : Half} {tl : List Byte} (h : tl.length = okTailLength res i)
    (ht : t.rspq = q ++ response .ok res tl) : Responds i q t :=
  ⟨.ok, res, tl, ht, fun hne => absurd rfl hne, fun _ => h⟩

theorem Responds.of_fail {st : Status} (h : st ≠ .ok) (ht : t.rspq = q ++ response st 0 []) : Responds i q t :=
  ⟨st, 0, [], ht, fun _ => rfl, fun e => absurd e h⟩

/-- A command that never has a tail (R87) may answer any status and RESULT. -/
theorem Responds.of_tailless {st : Status} {res : Half} (h : okTailLength res i = 0)
    (ht : t.rspq = q ++ response st res []) : Responds i q t :=
  ⟨st, res, [], ht, fun _ => rfl, fun _ => h.symm⟩

end Responds

section

variable {s t : State}

theorem execEscPut_responds {b : Byte} (h : execEscPut b s = .next t) : Responds (.escPut b) s.rspq t := by
  unfold execEscPut at h
  split at h <;> cases h
  · exact .of_ok rfl rfl
  · refine .of_ok (res := half (escByte b).length) (tl := escByte b) ?_ rfl
    exact (half_toNat ((escByte_length_le b).trans (by decide))).symm

theorem execUnePut_responds {b : Byte} (h : execUnePut b s = .next t) : Responds (.unePut b) s.rspq t := by
  unfold execUnePut at h
  split at h
  · cases h; exact .of_ok rfl rfl
  · split at h <;> cases h <;> exact .of_ok rfl rfl
  · cases h; exact .of_ok rfl rfl

theorem execSend_responds {addr : Half} {p : List Byte} (hl : s.cfg.Legal) (h : execSend addr p s = .next t) :
    Responds (.send addr p) s.rspq t := by
  unfold execSend at h
  split at h <;> cases h
  · exact .of_fail (by decide) rfl
  · next hp =>
    refine .of_ok ?_ rfl
    have hlen := escape_length_le (buildFrame addr p)
    rw [buildFrame_length] at hlen
    unfold Config.maxPayload at hp
    obtain ⟨-, -, -, hscratch, -⟩ := hl
    exact (half_toNat (by omega)).symm

theorem execRecv_responds {w : List Byte} (hl : s.cfg.Legal) (h : execRecv w s = .next t) :
    Responds (.recv w) s.rspq t := by
  obtain ⟨-, -, -, -, -, hrin⟩ := hl
  unfold execRecv at h
  obtain ⟨st, hst, e⟩ | ⟨u, k, hu, e⟩ := parseWindow_cases s.cfg.rinSize (lenpolTolerant s) w <;> rw [e] at h <;>
    cases h
  · exact .of_fail hst rfl
  · refine .of_ok ?_ rfl
    show (halfBytes (half k) ++ u).length = 2 + (half u.length).toNat
    rw [half_toNat (hu.trans hrin), List.length_append]
    rfl

theorem execRbCopy_responds {start : Half} (hp : PointersOk s) (h : execRbCopy start s = .next t) :
    Responds (.rbCopy start) s.rspq t := by
  unfold execRbCopy at h
  split at h
  · cases h; exact .of_fail (by decide) rfl
  · split at h
    · cases h; exact .of_fail (by decide) rfl
    · rw [readRun_spec hp.1] at h
      cases h
      refine .of_ok ?_ rfl
      rw [List.length_map, List.length_range]
      rfl

end

/-- Every command answers once: RESET into the emptied RSPQ, every other command after what RSPQ held. -/
theorem exec_responds {i : Instr} {s t : State} (hl : s.cfg.Legal) (hp : PointersOk s) (h : exec i s = .next t) :
    Responds i (if i = .reset then [] else s.rspq) t := by
  by_cases hi : i = .reset
  · subst hi
    cases h
    exact .of_tailless rfl rfl
  rw [if_neg hi]
  cases i
  case reset => exact absurd rfl hi
  case escPut b => exact execEscPut_responds h
  case unePut b => exact execUnePut_responds h
  case send addr p => exact execSend_responds hl h
  case recv w => exact execRecv_responds hl h
  case rbCopy start => exact execRbCopy_responds hp h
  case uneEnd => obtain ⟨st, e⟩ := execUneEnd_next h; exact .of_tailless rfl (congrArg State.rspq e)
  case ckTest => obtain ⟨st, e⟩ := execCkTest_next h; exact .of_tailless rfl (congrArg State.rspq e)
  case rbEnq b => obtain ⟨st, r, e⟩ := execRbEnq_next h; exact .of_tailless rfl (congrArg State.rspq e)
  case rbDeq => obtain ⟨st, r, e⟩ := execRbDeq_next h; exact .of_tailless rfl (congrArg State.rspq e)
  case rbEnqseq d => obtain ⟨st, r, e⟩ := execRbEnqseq_next h; exact .of_tailless rfl (congrArg State.rspq e)
  case rbPeek off => obtain ⟨st, r, e⟩ := execRbPeek_next h; exact .of_tailless rfl (congrArg State.rspq e)
  case rbClear upto => obtain ⟨r, e⟩ := execRbClear_next h; exact .of_tailless rfl (congrArg State.rspq e)
  all_goals
    cases h
    exact .of_tailless rfl rfl

/-- Settles O52, command by command, and for an illegal opcode by the parser's answer. -/
theorem everyCommandGetsOneResponse : Obligations.EveryCommandGetsOneResponse := by
  refine ⟨fun i s t hl hp h => ?_, fun s opc r hd => runParsed_illegal hd⟩
  obtain ⟨st, res, tl, hr, hfail, hok⟩ := exec_responds hl hp h
  refine ⟨st.code, res, tl, hr.trans (by rw [response_eq]), st.code_mem, fun hne => ?_, fun h0 => ?_⟩
  · exact hfail fun e => hne (st.code_eq_zero_iff.2 e)
  · rw [hok (st.code_eq_zero_iff.1 h0)]
    cases i <;> rfl

end Sys2Proof.Machine
end

section
/-! PROOFS. The statements of spec/41_codec_engines.md: the codec functions (R100 to R106), the commands of the three
byte-serial engines (R110, R111, R113 to R115, R117 to R121), and that a run of them computes the function (R112, R116,
R122). -/

namespace Sys2Proof.Machine

/-! ### escape (R100, R101) -/

theorem isReserved_eq_decide (b : Byte) : isReserved b = decide (b = 0x7E ∨ b = 0x7D ∨ b = 0x11 ∨ b = 0x13) :=
  Bool.eq_iff_iff.2 ((isReserved_iff b).trans decide_eq_true_iff.symm)

theorem escByte_eq_ite (b : Byte) :
    escByte b = if b = 0x7E ∨ b = 0x7D ∨ b = 0x11 ∨ b = 0x13 then [0x7D, b ^^^ 0x20] else [b] := by
  unfold escByte
  rw [isReserved_eq_decide]
  simp only [decide_eq_true_eq]
  rfl

theorem escByte_length (b : Byte) : (escByte b).length = 1 + if isReserved b then 1 else 0 := by
  unfold escByte
  split <;> rfl

/-- Each reserved byte takes one byte more. -/
theorem flatMap_escByte_length (r : List Byte) : (r.flatMap escByte).length = r.length + r.countP isReserved := by
  induction r with
  | nil => rfl
  | cons b r ih =>
    rw [List.flatMap_cons, List.length_append, ih, escByte_length, List.length_cons, List.countP_cons]
    omega

/-- Settles O24, from what escaping one byte gives. -/
theorem escapeCopiesFirstAndEscapesTheRest : Obligations.EscapeCopiesFirstAndEscapesTheRest := by
  refine ⟨rfl, fun b0 r => ⟨?_, ?_, ?_⟩⟩
  · rw [escape_cons, List.flatMap_def, funext escByte_eq_ite]
  · have hlen := flatMap_escByte_length r
    rw [funext isReserved_eq_decide] at hlen
    rw [escape_cons, List.length_cons, List.length_cons, hlen]
    omega
  · have hle := flatMap_escByte_length_le r
    rw [escape_cons, List.length_cons, List.length_cons]
    omega

/-! ### unescape (R103, R105) -/

/-- `r` after the first byte unescapes to `v`: the successful readings of R103, pair by pair and byte by byte. -/
inductive Unescapes : List Byte → List Byte → Prop where
  /-- Nothing is left. -/
  | nil : Unescapes [] []
  /-- An escape and the byte it joins. -/
  | pair (c : Byte) {r v : List Byte} (h : Unescapes r v) : Unescapes (escByteValue :: c :: r) ((c ^^^ xorMask) :: v)
  /-- A byte other than 0x7D. -/
  | plain {b : Byte} (hb : b ≠ escByteValue) {r v : List Byte} (h : Unescapes r v) : Unescapes (b :: r) (b :: v)

theorem Unescapes.of_unescapeRest {r v : List Byte} (h : unescapeRest r = some v) : Unescapes r v := by
  fun_induction unescapeRest r generalizing v with
  | case1 => cases h; exact .nil
  | case2 => cases h
  | case3 b hb => cases h; exact .plain hb .nil
  | case4 c r ih =>
    obtain ⟨v, hv, rfl⟩ := Option.map_eq_some_iff.1 h
    exact .pair c (ih hv)
  | case5 b c r hb ih =>
    obtain ⟨v, hv, rfl⟩ := Option.map_eq_some_iff.1 h
    exact .plain hb (ih hv)

theorem Unescapes.unescapeRest_eq {r v : List Byte} (h : Unescapes r v) : unescapeRest r = some v := by
  induction h with
  | nil => rfl
  | pair c _ ih => rw [unescapeRest_pair, ih]; rfl
  | plain hb _ ih => rw [unescapeRest_plain hb, ih]; rfl

theorem Unescapes.unescape_eq {r v : List Byte} (h : Unescapes r v) (b0 : Byte) :
    unescape (b0 :: r) = some (b0 :: v) := by
  rw [unescape_cons, h.unescapeRest_eq]
  rfl

/-- `unescapeRest` fails only at a last, unpaired escape, with everything before it unescaped. -/
theorem unescapeRest_eq_none {r : List Byte} (h : unescapeRest r = none) :
    ∃ p v, r = p ++ [escByteValue] ∧ Unescapes p v := by
  fun_induction unescapeRest r with
  | case1 => cases h
  | case2 => exact ⟨[], [], rfl, .nil⟩
  | case3 => cases h
  | case4 c r ih =>
    obtain ⟨p, v, rfl, hp⟩ := ih (Option.map_eq_none_iff.1 h)
    exact ⟨escByteValue :: c :: p, _, rfl, .pair c hp⟩
  | case5 b c r hb ih =>
    obtain ⟨p, v, hr, hp⟩ := ih (Option.map_eq_none_iff.1 h)
    exact ⟨b :: p, _, congrArg (b :: ·) hr, .plain hb hp⟩

/-- Settles O25: the equations of `unescapeRest` under the copied first byte. -/
theorem unescapeFollowsItsRules : Obligations.UnescapeFollowsItsRules := by
  refine ⟨rfl, fun b0 b c r => ⟨rfl, rfl, ?_, fun hb => ?_⟩⟩
  · rw [unescape_cons, unescape_cons]
    exact congrArg (Option.map (b0 :: ·)) (unescapeRest_pair c r)
  · rw [unescape_cons, unescape_cons, unescapeRest_plain hb]

/-- A reserved byte comes back from its pair, and any other byte is no escape. -/
theorem unescapes_flatMap_escByte (r : List Byte) : Unescapes (r.flatMap escByte) r := by
  induction r with
  | nil => exact .nil
  | cons b r ih =>
    rw [List.flatMap_cons]
    by_cases hb : isReserved b = true
    · have hpair := ih.pair (b ^^^ xorMask)
      rw [xorMask_involutive] at hpair
      rw [escByte_of_reserved hb]
      exact hpair
    · rw [escByte_of_not_reserved hb]
      exact ih.plain fun e => hb ((congrArg isReserved e).trans isReserved_escByteValue)

/-- Settles O26: the first byte is copied both ways, and the escaped rest unescapes to the rest. -/
theorem unescapeInvertsEscape : Obligations.UnescapeInvertsEscape := by
  intro s
  cases s with
  | nil => rfl
  | cons b r => exact (unescapes_flatMap_escByte r).unescape_eq b

/-! ### pos (R104) -/

theorem posRest_pair (k : Nat) (c : Byte) (r : List Byte) :
    posRest k (escByteValue :: c :: r) = (k + 1) :: posRest (k + 2) r := by
  rw [posRest, if_pos rfl]

theorem posRest_plain {b : Byte} (hb : b ≠ escByteValue) (k : Nat) (r : List Byte) :
    posRest k (b :: r) = k :: posRest (k + 1) r := by
  cases r with
  | nil => simp [posRest, hb]
  | cons c r => rw [posRest, if_neg hb]

section Positions

variable {r v : List Byte} (h : Unescapes r v)
include h

theorem Unescapes.length_le_two_mul : r.length ≤ 2 * v.length := by
  induction h with
  | nil => exact Nat.le_refl 0
  | pair => rw [List.length_cons, List.length_cons, List.length_cons]; omega
  | plain => rw [List.length_cons, List.length_cons]; omega

theorem Unescapes.posRest_length (k : Nat) : (posRest k r).length = v.length := by
  induction h generalizing k with
  | nil => rfl
  | pair c _ ih => rw [posRest_pair, List.length_cons, ih, List.length_cons]
  | plain hb _ ih => rw [posRest_plain hb, List.length_cons, ih, List.length_cons]

/-- The input up to the position of an output byte unescapes to the output up to that byte. -/
theorem Unescapes.take {k j i : Nat} (hj : (posRest k r)[j]? = some i) :
    ∃ m, i = k + m ∧ Unescapes (r.take (m + 1)) (v.take (j + 1)) := by
  induction h generalizing k j with
  | nil => cases hj
  | pair c _ ih =>
    rw [posRest_pair] at hj
    cases j with
    | zero => cases hj; exact ⟨1, rfl, .pair c .nil⟩
    | succ j =>
      obtain ⟨m, rfl, hm⟩ := ih hj
      exact ⟨m + 2, by omega, .pair c hm⟩
  | plain hb _ ih =>
    rw [posRest_plain hb] at hj
    cases j with
    | zero => cases hj; exact ⟨0, rfl, .plain hb .nil⟩
    | succ j =>
      obtain ⟨m, rfl, hm⟩ := ih hj
      exact ⟨m + 1, by omega, .plain hb hm⟩

theorem Unescapes.le_of_mem_posRest {k i : Nat} (hi : i ∈ posRest k r) : k ≤ i := by
  obtain ⟨j, hj⟩ := List.mem_iff_getElem?.1 hi
  obtain ⟨m, rfl, -⟩ := h.take hj
  exact Nat.le_add_right k m

theorem Unescapes.posRest_pairwise (k : Nat) : (posRest k r).Pairwise (· < ·) := by
  induction h generalizing k with
  | nil => exact .nil
  | pair c h ih =>
    rw [posRest_pair]
    exact .cons (fun _ hi => h.le_of_mem_posRest hi) (ih (k + 2))
  | plain hb h ih =>
    rw [posRest_plain hb]
    exact .cons (fun _ hi => h.le_of_mem_posRest hi) (ih (k + 1))

/-- The last output byte, after one at position `k`, is completed by the last input byte. -/
theorem Unescapes.last_position (k : Nat) : (k :: posRest (k + 1) r)[v.length]? = some (k + r.length) := by
  induction h generalizing k with
  | nil => rfl
  | pair c _ ih =>
    rw [posRest_pair, List.length_cons, List.getElem?_cons_succ, ih, List.length_cons, List.length_cons]
    congr 1
    omega
  | plain hb _ ih =>
    rw [posRest_plain hb, List.length_cons, List.getElem?_cons_succ, ih, List.length_cons]
    congr 1
    omega

end Positions

/-- Settles O27: position 0 is the first byte's, and the rest is `posRest` from 1 on. -/
theorem positionsCompleteEachOutputByte : Obligations.PositionsCompleteEachOutputByte := by
  intro w u hu
  have hle := unescape_length_le hu
  cases w with
  | nil =>
    cases hu
    exact ⟨hle, fun hw => absurd rfl hw, rfl, .nil, fun hw => absurd rfl hw, fun _ _ hj => by cases hj⟩
  | cons b0 r =>
    obtain ⟨v, hv, rfl⟩ := Option.map_eq_some_iff.1 hu
    have h := Unescapes.of_unescapeRest hv
    refine ⟨hle, fun _ => ?_, congrArg (· + 1) (h.posRest_length 1),
      .cons (fun _ hi => h.le_of_mem_posRest hi) (h.posRest_pairwise 1), fun _ => ⟨rfl, ?_⟩, ?_⟩
    · have := h.length_le_two_mul
      rw [List.length_cons, List.length_cons]
      omega
    · exact (h.last_position 0).trans (congrArg some (Nat.zero_add _))
    · intro j i hj
      cases j with
      | zero => cases hj; rfl
      | succ j =>
        obtain ⟨m, rfl, hm⟩ := h.take hj
        rw [Nat.add_comm 1 m]
        exact hm.unescape_eq b0

/-! ### cksum (R106) -/

theorem cksum_append_complement (d : List Byte) : cksum (d ++ [0xFF - cksum d]) = 0xFF := by
  rw [cksum_append, cksum_singleton]
  exact add_sub_cancel _ _

/-- Settles O28, from the checksum of a joined sequence and the two forms of the complement. -/
theorem checksumByteCompletesTheSum : Obligations.ChecksumByteCompletesTheSum :=
  ⟨cksum_nil, fun d => ⟨BitVec.toNat_ofNat _ _,
    (complement_eq_sub _).symm.trans (complement_eq_not _), cksum_append_complement d⟩⟩

/-! ### The response of an emitting command (R86, R111, R114) -/

theorem hiByte_half {n : Nat} (h : n < 256) : hiByte (half n) = 0 := by
  have hdiv : n % 65536 / 256 = 0 := by omega
  apply BitVec.eq_of_toNat_eq
  simp [hiByte, half, Nat.shiftRight_eq_div_pow, hdiv]

theorem loByte_half (n : Nat) : loByte (half n) = BitVec.ofNat 8 n := by
  apply BitVec.eq_of_toNat_eq
  simp [loByte, half]

/-- The OK response of ESC.PUT and UNE.PUT with a given tail. -/
def tailReply (t : List Byte) : List Byte := [0x00, 0x00, BitVec.ofNat 8 t.length] ++ t

theorem finishEmit_eq {out : List Byte} (h : out.length < 256) (s : State) :
    finishEmit out s = { s with rspq := s.rspq ++ tailReply out } := by
  rw [finishEmit_eq_finish, finish_eq, response_eq, hiByte_half h, loByte_half]
  rfl

theorem finishEmit_byte (b : Byte) (s : State) :
    finishEmit [b] s = { s with rspq := s.rspq ++ [0x00, 0x00, 0x01, b] } :=
  finishEmit_eq (Nat.one_lt_ofNat) s

/-! ### The escape engine's commands (R110, R111) -/

section EscPut

variable {s : State} (b : Byte)

theorem exec_escPut_first (h : s.escSt = .first) :
    exec (.escPut b) s = .next { s with escSt := .rest, rspq := s.rspq ++ [0x00, 0x00, 0x01, b] } := by
  show execEscPut b s = _
  unfold execEscPut
  rw [h]
  exact congrArg _ (finishEmit_byte b _)

theorem exec_escPut_rest (h : s.escSt = .rest) :
    exec (.escPut b) s = .next { s with rspq := s.rspq ++ tailReply (escByte b) } := by
  have hput : execEscPut b s = .next (finishEmit (escByte b) s) := by
    unfold execEscPut
    rw [h]
  exact hput.trans (congrArg _ (finishEmit_eq ((escByte_length_le b).trans_lt (by decide)) s))

variable {b}

theorem exec_escPut_reserved (h : s.escSt = .rest) (hb : isReserved b = true) :
    exec (.escPut b) s = .next { s with rspq := s.rspq ++ [0x00, 0x00, 0x02, 0x7D, b ^^^ 0x20] } := by
  rw [exec_escPut_rest b h, escByte_of_reserved hb]
  rfl

theorem exec_escPut_plain (h : s.escSt = .rest) (hb : ¬isReserved b = true) :
    exec (.escPut b) s = .next { s with rspq := s.rspq ++ [0x00, 0x00, 0x01, b] } := by
  rw [exec_escPut_rest b h, escByte_of_not_reserved hb]
  rfl

end EscPut

/-- Only ESC.INIT, ESC.PUT and RESET write ESC_ST, and ESC.PUT does not leave REST. -/
theorem exec_keeps_rest {i : Instr} {s t : State} (h : exec i s = .next t) (hs : s.escSt = .rest) (hinit : i ≠ .escInit)
    (hreset : i ≠ .reset) : t.escSt = .rest := by
  by_contra hne
  obtain rfl | ⟨b, rfl⟩ : i = .escInit ∨ ∃ b, i = .escPut b :=
    exec_writes hreset h State.escSt (withWritten_escSt i s t) (hne := fun e => hne (e.trans hs))
  · exact hinit rfl
  · rw [exec_escPut_rest b hs] at h
    cases h
    exact hne hs

/-- Settles O18: ESC.PUT by ESC_ST and the byte, and `exec_keeps_rest` for every other command. -/
theorem escapeEngineStep : Obligations.EscapeEngineStep := by
  refine ⟨fun _ => rfl, fun _ _ => rfl, fun s b => ⟨rfl, exec_escPut_first b, fun h hb => ?_, fun h hb => ?_, ?_⟩⟩
  · exact exec_escPut_reserved h ((isReserved_iff b).2 hb)
  · exact exec_escPut_plain h (mt (isReserved_iff b).1 hb)
  · exact fun hs i t h => exec_keeps_rest h hs

/-! ### The unescape engine's commands (R113 to R115) -/

section Une

variable {s : State}

theorem exec_unePut_first (b : Byte) (h : s.uneSt = .first) :
    exec (.unePut b) s = .next { s with uneSt := .normal, rspq := s.rspq ++ [0x00, 0x00, 0x01, b] } := by
  show execUnePut b s = _
  unfold execUnePut
  rw [h]
  exact congrArg _ (finishEmit_byte b _)

theorem exec_unePut_escape (h : s.uneSt = .normal) :
    exec (.unePut escByteValue) s = .next { s with uneSt := .escaped, rspq := s.rspq ++ [0x00, 0x00, 0x00] } := by
  show execUnePut _ s = _
  unfold execUnePut
  rw [h]
  rfl

theorem exec_unePut_plain {b : Byte} (h : s.uneSt = .normal) (hb : b ≠ escByteValue) :
    exec (.unePut b) s = .next { s with rspq := s.rspq ++ [0x00, 0x00, 0x01, b] } := by
  have hput : execUnePut b s = .next (finishEmit [b] s) := by
    unfold execUnePut
    rw [h]
    exact if_neg hb
  exact hput.trans (congrArg _ (finishEmit_byte b s))

theorem exec_unePut_escaped (b : Byte) (h : s.uneSt = .escaped) :
    exec (.unePut b) s = .next { s with uneSt := .normal, rspq := s.rspq ++ [0x00, 0x00, 0x01, b ^^^ 0x20] } := by
  show execUnePut b s = _
  unfold execUnePut
  rw [h]
  exact congrArg _ (finishEmit_byte (b ^^^ xorMask) _)

theorem exec_uneEnd_ok (h : s.uneSt ≠ .escaped) :
    exec .uneEnd s = .next { s with uneSt := .first, rspq := s.rspq ++ [0x00, 0x00, 0x00] } := by
  show execUneEnd s = _
  unfold execUneEnd
  split
  · rfl
  · rfl
  · next hs => exact absurd hs h

theorem exec_uneEnd_dangling (h : s.uneSt = .escaped) :
    exec .uneEnd s = .next { s with uneSt := .first, rspq := s.rspq ++ [0x14, 0x00, 0x00] } := by
  show execUneEnd s = _
  unfold execUneEnd
  rw [h]
  rfl

end Une

/-- Settles O19: UNE.PUT and UNE.END in each state of UNE_ST. -/
theorem unescapeEngineStep : Obligations.UnescapeEngineStep :=
  ⟨fun _ => rfl, fun _ _ => rfl, fun _ => rfl, fun _ b => ⟨rfl, exec_unePut_first b,
    fun h hb => hb ▸ exec_unePut_escape h, exec_unePut_plain, exec_unePut_escaped b, exec_uneEnd_ok,
    exec_uneEnd_dangling⟩⟩

/-! ### The checksum accumulator's commands (R117 to R121) -/

theorem response_zext16 (b : Byte) : response .ok (zext16 b) [] = [0x00, 0x00, b] := by
  rw [response_eq, hiByte_zext16, loByte_zext16]
  rfl

section Ck

variable (s : State)

theorem exec_ckAdd (b : Byte) :
    exec (.ckAdd b) s = .next { s with ckAcc := s.ckAcc + b, rspq := s.rspq ++ [0x00, 0x00, s.ckAcc + b] } := by
  show execCkAdd b s = _
  unfold execCkAdd
  rw [addMod256_eq_add, finish_eq, response_zext16]

theorem exec_ckGet : exec .ckGet s = .next { s with rspq := s.rspq ++ [0x00, 0x00, 0xFF - s.ckAcc] } := by
  show execCkGet s = _
  unfold execCkGet
  rw [finish_eq, response_zext16, complement_eq_sub]

theorem exec_ckRaw : exec .ckRaw s = .next { s with rspq := s.rspq ++ [0x00, 0x00, s.ckAcc] } := by
  show execCkRaw s = _
  unfold execCkRaw
  rw [finish_eq, response_zext16]

variable {s}

theorem exec_ckTest_ok (h : s.ckAcc = 0xFF) :
    exec .ckTest s = .next { s with rspq := s.rspq ++ [0x00, 0x00, 0x00] } := if_neg (not_not_intro h)

theorem exec_ckTest_mismatch (h : s.ckAcc ≠ 0xFF) :
    exec .ckTest s = .next { s with rspq := s.rspq ++ [0x13, 0x00, 0x00] } := if_pos h

end Ck

/-- Settles O20, command by command; the sum that CK.ADD leaves is that of bytes. -/
theorem checksumAccumulatorStep : Obligations.ChecksumAccumulatorStep :=
  ⟨fun _ => rfl, fun _ _ => rfl, fun _ => rfl, fun _ => rfl, fun _ => rfl, fun s b =>
    ⟨rfl, ⟨s.ckAcc + b, BitVec.toNat_add _ _, exec_ckAdd s b⟩, exec_ckGet s, exec_ckRaw s, exec_ckTest_ok,
      exec_ckTest_mismatch⟩⟩

/-! ### Runs of commands -/

theorem commandRun_cons {i : Instr} {s t : State} (h : exec i s = .next t) (is : List Instr) :
    commandRun (i :: is) s = commandRun is t := by
  simp only [commandRun, List.map_cons, atomicRun, atomic, h]

theorem commandRun_append {is : List Instr} : ∀ {s t : State}, commandRun is s = .next t → ∀ js : List Instr,
    commandRun (is ++ js) s = commandRun js t := by
  induction is with
  | nil =>
    intro s t h js
    cases h
    rfl
  | cons i is ih =>
    intro s t h js
    cases hi : exec i s with
    | next u =>
      rw [commandRun_cons hi] at h
      rw [List.cons_append, commandRun_cons hi, ih h]
    | fault f => simp [commandRun, atomicRun, atomic, hi] at h
    | refused f => simp [commandRun, atomicRun, atomic, hi] at h

/-- An engine that takes one byte at a time: what a byte leaves in the engine's register and what it answers. -/
structure ByteEngine (σ α : Type) where
  /-- The register after the byte. -/
  next : σ → Byte → σ
  /-- What the byte is answered with. -/
  out : σ → Byte → α

namespace ByteEngine

variable {σ α : Type} (e : ByteEngine σ α)

/-- The register after a sequence. -/
def final (x : σ) (bs : List Byte) : σ := bs.foldl e.next x

/-- The answers to a sequence, one for each byte. -/
def outs : σ → List Byte → List α
  | _, [] => []
  | x, b :: r => e.out x b :: outs (e.next x b) r

@[simp] theorem outs_length (x : σ) (bs : List Byte) : (e.outs x bs).length = bs.length := by
  induction bs generalizing x with
  | nil => rfl
  | cons b r ih => exact congrArg (· + 1) (ih _)

theorem final_cons (x : σ) (b : Byte) (r : List Byte) : e.final x (b :: r) = e.final (e.next x b) r := rfl

theorem outs_append (x : σ) (p q : List Byte) : e.outs x (p ++ q) = e.outs x p ++ e.outs (e.final x p) q := by
  induction p generalizing x with
  | nil => rfl
  | cons b r ih => exact congrArg (e.out x b :: ·) (ih _)

theorem final_append (x : σ) (p q : List Byte) : e.final x (p ++ q) = e.final (e.final x p) q := List.foldl_append

/-- A run of an engine's command over a sequence, given what the command does with one byte. `stateOf x q` is the state
with `x` in the engine's register and `q` in RSPQ. -/
theorem commandRun_map {cmd : Byte → Instr} {stateOf : σ → List Byte → State} {reply : α → List Byte}
    (hcmd : ∀ x q b, exec (cmd b) (stateOf x q) = .next (stateOf (e.next x b) (q ++ reply (e.out x b))))
    (bs : List Byte) (x : σ) (q : List Byte) :
    commandRun (bs.map cmd) (stateOf x q) =
      .next (stateOf (e.final x bs) (q ++ ((e.outs x bs).map reply).flatten)) := by
  induction bs generalizing x q with
  | nil => exact congrArg (fun q' => Host.Outcome.next (stateOf x q')) (List.append_nil q).symm
  | cons b r ih =>
    rw [List.map_cons, commandRun_cons (hcmd x q b), ih, List.append_assoc]
    rfl

end ByteEngine

/-! ### ESC.INIT and ESC.PUTs compute escape (R112) -/

/-- ESC.PUT (R111). -/
def escEngine : ByteEngine EscState (List Byte) where
  next _ _ := .rest
  out x b := match x with
    | .first => [b]
    | .rest => escByte b

theorem exec_escPut (s : State) (x : EscState) (q : List Byte) (b : Byte) :
    exec (.escPut b) { s with escSt := x, rspq := q } =
      .next { s with escSt := escEngine.next x b, rspq := q ++ tailReply (escEngine.out x b) } := by
  cases x with
  | first => exact exec_escPut_first b rfl
  | rest => exact exec_escPut_rest b rfl

theorem escEngine_outs_rest (r : List Byte) : escEngine.outs .rest r = r.map escByte := by
  induction r with
  | nil => rfl
  | cons b r ih => exact congrArg (escByte b :: ·) ih

theorem escEngine_final_rest (r : List Byte) : escEngine.final .rest r = .rest := by
  induction r with
  | nil => rfl
  | cons b r ih => exact ih

theorem escEngine_outs_flatten (bs : List Byte) : (escEngine.outs .first bs).flatten = escape bs := by
  cases bs with
  | nil => rfl
  | cons b r =>
    show b :: (escEngine.outs .rest r).flatten = b :: r.flatMap escByte
    rw [escEngine_outs_rest, List.flatMap_def]

theorem escEngine_final (bs : List Byte) : escEngine.final .first bs = if bs = [] then .first else .rest := by
  cases bs with
  | nil => rfl
  | cons b r => exact escEngine_final_rest r

/-- Settles O21: ESC.INIT sets FIRST, and the engine's outputs from FIRST on are `escape`. -/
theorem escapeEngineEmitsEscape : Obligations.EscapeEngineEmitsEscape := by
  intro s bs
  refine ⟨escEngine.outs .first bs, escEngine.outs_length .first bs, escEngine_outs_flatten bs, ?_⟩
  rw [← escEngine_final]
  exact (commandRun_cons rfl _).trans
    (escEngine.commandRun_map (exec_escPut s) bs .first (s.rspq ++ [0x00, 0x00, 0x00]))

/-! ### UNE.INIT, UNE.PUTs and UNE.END compute unescape (R116) -/

/-- UNE.PUT (R114). -/
def uneEngine : ByteEngine UneState (List Byte) where
  next x b := match x with
    | .first => .normal
    | .normal => if b = escByteValue then .escaped else .normal
    | .escaped => .normal
  out x b := match x with
    | .first => [b]
    | .normal => if b = escByteValue then [] else [b]
    | .escaped => [b ^^^ xorMask]

theorem exec_unePut (s : State) (x : UneState) (q : List Byte) (b : Byte) :
    exec (.unePut b) { s with uneSt := x, rspq := q } =
      .next { s with uneSt := uneEngine.next x b, rspq := q ++ tailReply (uneEngine.out x b) } := by
  cases x with
  | first => exact exec_unePut_first b rfl
  | normal =>
    by_cases hb : b = escByteValue
    · subst hb
      exact exec_unePut_escape rfl
    · rw [exec_unePut_plain rfl hb]
      simp [uneEngine, hb, tailReply]
  | escaped => exact exec_unePut_escaped b rfl

/-- On a sequence that unescapes, the engine emits what it unescapes to and ends with no escape pending. -/
theorem Unescapes.uneEngine_run {r v : List Byte} (h : Unescapes r v) :
    (uneEngine.outs .normal r).flatten = v ∧ uneEngine.final .normal r = .normal := by
  induction h with
  | nil => exact ⟨rfl, rfl⟩
  | pair c _ ih => exact ⟨congrArg ((c ^^^ xorMask) :: ·) ih.1, ih.2⟩
  | @plain b hb r v _ ih =>
    have hnext : uneEngine.next .normal b = .normal := if_neg hb
    have hout : uneEngine.out .normal b = [b] := if_neg hb
    constructor
    · rw [ByteEngine.outs, hnext, hout, List.flatten_cons, ih.1]
      rfl
    · rw [ByteEngine.final_cons, hnext, ih.2]

/-- What UNE.END answers after a sequence (R115). -/
def uneEndCode (bs : List Byte) : Byte := if uneEngine.final .first bs = .escaped then 0x14 else 0x00

theorem exec_uneEnd (s : State) (x : UneState) (q : List Byte) :
    exec .uneEnd { s with uneSt := x, rspq := q } =
      .next { s with uneSt := .first, rspq := q ++ [if x = .escaped then 0x14 else 0x00, 0x00, 0x00] } := by
  by_cases hx : x = .escaped
  · rw [exec_uneEnd_dangling hx, if_pos hx]
  · rw [exec_uneEnd_ok hx, if_neg hx]

theorem commandRun_pseudoUneSeq (s : State) (bs : List Byte) :
    commandRun (pseudoUneSeq bs) s = .next { s with
      uneSt := .first
      rspq := s.rspq ++ [0x00, 0x00, 0x00] ++ ((uneEngine.outs .first bs).map tailReply).flatten ++
        [uneEndCode bs, 0x00, 0x00] } := by
  have hputs := uneEngine.commandRun_map (exec_unePut s) bs .first (s.rspq ++ [0x00, 0x00, 0x00])
  show commandRun (.uneInit :: (bs.map .unePut ++ [.uneEnd])) s = _
  rw [commandRun_cons (t := { s with uneSt := .first, rspq := s.rspq ++ [0x00, 0x00, 0x00] }) rfl,
    commandRun_append hputs, commandRun_cons (exec_uneEnd s _ _)]
  rfl

/-- A successful `unescape` is what the engine emits, and UNE.END answers OK. -/
theorem uneEngine_of_unescape_some {bs u : List Byte} (h : unescape bs = some u) :
    (uneEngine.outs .first bs).flatten = u ∧ uneEndCode bs = 0x00 := by
  cases bs with
  | nil => cases h; exact ⟨rfl, rfl⟩
  | cons b r =>
    obtain ⟨v, hv, rfl⟩ := Option.map_eq_some_iff.1 h
    obtain ⟨houts, hfinal⟩ := (Unescapes.of_unescapeRest hv).uneEngine_run
    exact ⟨congrArg (b :: ·) houts, if_neg fun he => by cases hfinal.symm.trans he⟩

/-- Where `unescape` fails, the engine has emitted what all bytes but the last, an escape, unescape to. -/
theorem uneEngine_of_unescape_none {bs : List Byte} (h : unescape bs = none) :
    unescape bs.dropLast = some (uneEngine.outs .first bs).flatten ∧ bs.getLast? = some 0x7D ∧
      uneEndCode bs = 0x14 := by
  cases bs with
  | nil => cases h
  | cons b r =>
    obtain ⟨p, v, rfl, hp⟩ := unescapeRest_eq_none (Option.map_eq_none_iff.1 h)
    obtain ⟨houts, hfinal⟩ := hp.uneEngine_run
    have hfin : uneEngine.final .normal (p ++ [escByteValue]) = .escaped := by
      rw [ByteEngine.final_append, hfinal]
      rfl
    have hflat : (uneEngine.outs .first (b :: (p ++ [escByteValue]))).flatten = b :: v := by
      show b :: (uneEngine.outs .normal (p ++ [escByteValue])).flatten = _
      rw [ByteEngine.outs_append, hfinal, List.flatten_append, houts]
      exact congrArg (b :: ·) (List.append_nil v)
    rw [hflat, ← List.cons_append, List.dropLast_concat, List.getLast?_concat]
    exact ⟨hp.unescape_eq b, rfl, if_pos hfin⟩

/-- Settles O22, by whether `unescape` succeeds. -/
theorem unescapeEngineEmitsUnescape : Obligations.UnescapeEngineEmitsUnescape := fun s bs =>
  ⟨uneEngine.outs .first bs, uneEndCode bs, uneEngine.outs_length .first bs, fun _ => uneEngine_of_unescape_some,
    uneEngine_of_unescape_none, commandRun_pseudoUneSeq s bs⟩

/-! ### CK.INIT and CK.ADDs compute cksum (R122) -/

/-- CK.ADD (R118). -/
def ckEngine : ByteEngine Byte Byte where
  next x b := x + b
  out x b := x + b

theorem ckEngine_final (x : Byte) (bs : List Byte) : ckEngine.final x bs = x + cksum bs := by
  induction bs generalizing x with
  | nil => exact (add_zero x).symm
  | cons b r ih => rw [cksum_cons, ← add_assoc]; exact ih (x + b)

/-- The responses to CK.INIT and the CK.ADDs of a sequence. -/
def ckReplies (bs : List Byte) : List Byte :=
  [0x00, 0x00, 0x00] ++ ((ckEngine.outs 0 bs).map fun v => [0x00, 0x00, v]).flatten

theorem ckReplies_length (bs : List Byte) : (ckReplies bs).length = 3 * bs.length + 3 := by
  rw [ckReplies, List.length_append, List.length_flatten, List.map_map, Function.comp_def]
  simp [Nat.mul_comm, Nat.add_comm]

theorem commandRun_ckAdds (s : State) (bs : List Byte) :
    commandRun (.ckInit :: bs.map .ckAdd) s = .next { s with ckAcc := cksum bs, rspq := s.rspq ++ ckReplies bs } := by
  have hadds := ckEngine.commandRun_map (stateOf := fun x q => { s with ckAcc := x, rspq := q })
    (reply := fun v => [0x00, 0x00, v]) (fun x q b => exec_ckAdd { s with ckAcc := x, rspq := q } b) bs 0
    (s.rspq ++ [0x00, 0x00, 0x00])
  rw [ckEngine_final, zero_add, List.append_assoc] at hadds
  exact (commandRun_cons rfl _).trans hadds

/-- Settles O23: after the CK.ADDs, CK.GET reads the complement of the sum, and adding it gives 0xFF. -/
theorem checksumEngineComputesCksum : Obligations.ChecksumEngineComputesCksum := by
  intro s bs
  have hrun := commandRun_ckAdds s bs
  refine ⟨ckReplies bs, ckReplies_length bs, hrun, ?_, ?_⟩
  · exact (commandRun_append hrun [.ckGet]).trans (commandRun_cons (exec_ckGet _) [])
  · have hadd := exec_ckAdd { s with ckAcc := cksum bs, rspq := s.rspq ++ ckReplies bs } (0xFF - cksum bs)
    rw [add_sub_cancel] at hadd
    rw [commandRun_append hrun, commandRun_cons hadd]
    exact commandRun_cons (exec_ckTest_ok rfl) []

end Sys2Proof.Machine
end

section
/-! PROOFS. The statements of spec/42_frame.md: SEND answers the escaped frame (R130 to R132), RECV reports the first
check that fails (R133 to R140), RECV recovers what SEND built (R141, R142), and a flipped bit in a wire frame's last
byte is rejected (R143). Each goes through the one response of SEND or of RECV and the lemmas about the codec's build
and parse. -/

namespace Sys2Proof.Machine

/-! ### The one response of SEND and of RECV (R131, R133, R138) -/

/-- SEND's response: it depends on the parameters and the operands alone. -/
def sendReply (c : Config) (addr : Half) (p : List Byte) : List Byte :=
  if c.maxPayload < p.length then response .payloadTooLarge 0 []
  else response .ok (half (escape (buildFrame addr p)).length) (escape (buildFrame addr p))

/-- RECV's response, from the parse of its window. -/
def Parsed.reply : Parsed → List Byte
  | .accepted u consumed => response .ok (half u.length) (halfBytes (half consumed) ++ u)
  | .rejected st => response st 0 []

theorem exec_send (addr : Half) (p : List Byte) (s : State) :
    exec (.send addr p) s = .next { s with rspq := s.rspq ++ sendReply s.cfg addr p } := by
  show execSend addr p s = _
  unfold execSend sendReply
  split <;> rfl

theorem exec_recv {w : List Byte} {s : State} {q : Parsed}
    (h : parseWindow s.cfg.rinSize (s.ctrl.getLsbD 0) w = q) :
    exec (.recv w) s = .next { s with rspq := s.rspq ++ q.reply } := by
  subst h
  show execRecv w s = _
  unfold execRecv lenpolTolerant
  split <;> next h => rw [h]; rfl

theorem sendReply_of_le {c : Config} {addr : Half} {p : List Byte} (h : p.length ≤ c.maxPayload) :
    sendReply c addr p = response .ok (half (escape (buildFrame addr p)).length) (escape (buildFrame addr p)) :=
  if_neg (Nat.not_lt.2 h)

theorem sendReply_of_lt {c : Config} {addr : Half} {p : List Byte} (h : c.maxPayload < p.length) :
    sendReply c addr p = response .payloadTooLarge 0 [] :=
  if_pos h

/-- Settles O35: the two responses name the parameters, LENPOL and the operands, and no other field. -/
theorem sendAndRecvReadNoRegisterButLenpol : Obligations.SendAndRecvReadNoRegisterButLenpol := by
  refine fun s1 s2 hcfg => ⟨fun addr p => ⟨_, exec_send addr p s1, ?_⟩, fun w hctrl => ⟨_, exec_recv rfl, exec_recv ?_⟩⟩
  · rw [exec_send, hcfg]
  · rw [hcfg, hctrl]

/-- Settles O29: the frame written out is `buildFrame`, with the complement as a difference. -/
theorem sendBuildsAndEscapesTheFrame : Obligations.SendBuildsAndEscapesTheFrame := by
  refine ⟨fun n hi lo p r hp => takeTail_exact r (.send (hi ++ lo)) hp, fun s addr p => ?_⟩
  intro body frame len
  have hframe : buildFrame addr p = frame := by
    unfold buildFrame
    rw [complement_eq_sub]
    rfl
  constructor
  · intro hp
    rw [exec_send, sendReply_of_le hp, hframe]
    rfl
  · intro hp
    rw [exec_send, sendReply_of_lt hp]
    rfl

/-! ### RECV's checks, one lemma per outcome (R133 to R140) -/

section Checks

variable {n : Nat} {tolerant : Bool} {w u : List Byte}

theorem frontChecks_long (h : n < w.length) : frontChecks n w = some .badOperand := if_pos h

theorem frontChecks_nil : frontChecks n [] = some .tooShort := rfl

theorem frontChecks_badDelimiter (hn : w.length ≤ n) (hne : w ≠ []) (hhead : w.head? ≠ some 0x7E) :
    frontChecks n w = some .badDelimiter := by
  obtain ⟨w0, r, rfl⟩ := List.exists_cons_of_ne_nil hne
  unfold frontChecks
  rw [if_neg (Nat.not_lt.2 hn)]
  exact if_pos fun e => hhead (congrArg some e)

theorem frontChecks_delimiter (hn : w.length ≤ n) (hhead : w.head? = some 0x7E) :
    frontChecks n w = if w.length < 10 then some .tooShort else none := by
  obtain ⟨r, rfl⟩ := List.head?_eq_some_iff.1 hhead
  unfold frontChecks
  rw [if_neg (Nat.not_lt.2 hn)]
  rfl

theorem frontChecks_short (hn : w.length ≤ n) (hhead : w.head? = some 0x7E) (h : w.length < 10) :
    frontChecks n w = some .tooShort := by
  rw [frontChecks_delimiter hn hhead, if_pos h]

theorem frontChecks_pass (hn : w.length ≤ n) (hhead : w.head? = some 0x7E) (h : 10 ≤ w.length) :
    frontChecks n w = none := by
  rw [frontChecks_delimiter hn hhead, if_neg (Nat.not_lt.2 h)]

theorem ten_le_of_frontChecks_none (h : frontChecks n w = none) : 10 ≤ w.length := by
  have hn := frontChecks_none_length h
  by_cases hhead : w.head? = some 0x7E
  · rw [frontChecks_delimiter hn hhead] at h
    exact Nat.le_of_not_lt fun hshort => by rw [if_pos hshort] at h; cases h
  · cases w with
    | nil => cases (if_neg (Nat.not_lt.2 hn)).symm.trans h
    | cons w0 r => cases (frontChecks_badDelimiter hn (List.cons_ne_nil w0 r) hhead).symm.trans h

theorem lengthOk_iff (d l : Nat) :
    lengthOk tolerant d l = true ↔ (tolerant = false ∧ d = l - 4) ∨ (tolerant = true ∧ d ≤ l - 4) := by
  cases tolerant <;> simp [lengthOk]

theorem lengthOk_le {d l : Nat} (h : lengthOk tolerant d l = true) : d ≤ l - 4 := by
  obtain ⟨-, h⟩ | ⟨-, h⟩ := (lengthOk_iff d l).1 h
  · exact h.le
  · exact h

theorem checksumOk_iff (u : List Byte) (d : Nat) :
    checksumOk u d = true ↔ cksum ((u.drop 3).take (d + 1)) = 0xFF := beq_iff_eq

theorem parseWindow_front {st : Status} (h : frontChecks n w = some st) : parseWindow n tolerant w = .rejected st := by
  unfold parseWindow
  rw [h]

section FrontPassed

variable (hf : frontChecks n w = none)
include hf

theorem parseWindow_dangling (hu : unescape w = none) : parseWindow n tolerant w = .rejected .danglingEscape := by
  unfold parseWindow
  rw [hf, hu]

variable (hu : unescape w = some u)
include hu

theorem parseWindow_lengthMismatch (hl : ¬lengthOk tolerant (declaredLength u) u.length = true) :
    parseWindow n tolerant w = .rejected .lengthMismatch := by
  unfold parseWindow
  simp [hf, hu, hl]

theorem parseWindow_checksumMismatch (hl : lengthOk tolerant (declaredLength u) u.length = true)
    (hc : ¬checksumOk u (declaredLength u) = true) : parseWindow n tolerant w = .rejected .checksumMismatch := by
  unfold parseWindow
  simp [hf, hu, hl, hc]

theorem parseWindow_accepted (hl : lengthOk tolerant (declaredLength u) u.length = true)
    (hc : checksumOk u (declaredLength u) = true) :
    parseWindow n tolerant w = .accepted u (consumedCount w (declaredLength u)) := by
  unfold parseWindow
  simp [hf, hu, hl, hc]

end FrontPassed

/-- An accepted window passed every check. -/
theorem checks_of_parseWindow_accepted {c : Nat} (h : parseWindow n tolerant w = .accepted u c) :
    frontChecks n w = none ∧ unescape w = some u ∧ lengthOk tolerant (declaredLength u) u.length = true ∧
      checksumOk u (declaredLength u) = true ∧ c = consumedCount w (declaredLength u) := by
  cases hf : frontChecks n w with
  | some st => rw [parseWindow_front hf] at h; cases h
  | none =>
    cases hu : unescape w with
    | none => rw [parseWindow_dangling hf hu] at h; cases h
    | some v =>
      by_cases hl : lengthOk tolerant (declaredLength v) v.length = true
      · by_cases hc : checksumOk v (declaredLength v) = true
        · rw [parseWindow_accepted hf hu hl hc] at h
          cases h
          exact ⟨rfl, rfl, hl, hc, rfl⟩
        · rw [parseWindow_checksumMismatch hf hu hl hc] at h; cases h
      · rw [parseWindow_lengthMismatch hf hu hl] at h; cases h

/-! ### What an unescaped window gives (R104, R134, R136) -/

/-- R134: ten bytes unescape to at least six. -/
theorem six_le_unescaped_length (hu : unescape w = some u) (h : 10 ≤ w.length) : 6 ≤ u.length := by
  obtain ⟨-, hhalf, -⟩ := positionsCompleteEachOutputByte w u hu
  have := hhalf (List.ne_nil_of_length_pos (by omega))
  omega

/-- CONSUMED for a frame of `d + 4` bytes inside `u` is one past the position of its last byte; those bytes are in the
window and unescape to the frame, and are the whole window when the frame is all of `u`. -/
theorem consumedCount_spec {d : Nat} (hu : unescape w = some u) (hd : d + 4 ≤ u.length) :
    (∃ k, (posList w)[d + 3]? = some k ∧ consumedCount w d = k + 1) ∧ consumedCount w d ≤ w.length ∧
      unescape (w.take (consumedCount w d)) = some (u.take (d + 4)) ∧
      (u.length = d + 4 → consumedCount w d = w.length) := by
  obtain ⟨hle, -, hlen, hsorted, hends, htake⟩ := positionsCompleteEachOutputByte w u hu
  have hpos : 0 < w.length := by omega
  obtain ⟨-, hlast⟩ := hends (List.ne_nil_of_length_pos hpos)
  have hj : d + 3 < (posList w).length := by omega
  have hk := List.getElem?_eq_getElem hj
  have hcons : consumedCount w d = (posList w)[d + 3] + 1 := by
    unfold consumedCount
    rw [List.getD_eq_getElem _ _ hj]
  have hbound : (posList w)[d + 3] ≤ w.length - 1 := by
    obtain ⟨hl, hle⟩ := List.getElem?_eq_some_iff.1 hlast
    rw [← hle]
    exact hsorted.sortedLT.getElem_le_getElem_iff.2 (by omega)
  refine ⟨⟨_, hk, hcons⟩, by omega, ?_, fun hwhole => ?_⟩
  · rw [hcons]
    exact htake _ _ hk
  · rw [hwhole, show d + 4 - 1 = d + 3 from rfl, hk] at hlast
    have := Option.some.inj hlast
    omega

end Checks

/-- Settles O31: check by check, and the position that CONSUMED is read from. -/
theorem recvReportsTheFirstFailedCheck : Obligations.RecvReportsTheFirstFailedCheck := by
  refine ⟨fun hi lo w r hw => takeTail_exact r .recv (hw.trans (be16_toNat hi lo).symm), fun s w => ?_⟩
  refine ⟨fun hlong => exec_recv (parseWindow_front (frontChecks_long hlong)), fun hn => ⟨fun hnil => ?_,
    fun hne hhead => exec_recv (parseWindow_front (frontChecks_badDelimiter hn hne hhead)),
    fun hhead hshort => exec_recv (parseWindow_front (frontChecks_short hn hhead hshort)), fun hhead hten => ?_⟩⟩
  · subst hnil
    exact exec_recv (parseWindow_front frontChecks_nil)
  · have hf := frontChecks_pass hn hhead hten
    refine ⟨fun hu => exec_recv (parseWindow_dangling hf hu), fun u hu => ?_⟩
    have hlen := six_le_unescaped_length hu hten
    refine ⟨hlen, fun hl => ?_, fun hl hc => ?_, fun hl hc => ?_⟩
    · exact exec_recv (parseWindow_lengthMismatch hf hu (mt (lengthOk_iff _ _).1 hl))
    · exact exec_recv (parseWindow_checksumMismatch hf hu ((lengthOk_iff _ _).2 hl) (mt (checksumOk_iff _ _).1 hc))
    · have hok := (lengthOk_iff _ _).2 hl
      have hle : declaredLength u ≤ u.length - 4 := lengthOk_le hok
      obtain ⟨⟨k, hk, hcons⟩, -⟩ := consumedCount_spec hu (d := declaredLength u) (by omega)
      have hparse := parseWindow_accepted hf hu hok ((checksumOk_iff _ _).2 hc)
      exact ⟨k, hk, exec_recv (hparse.trans (congrArg (Parsed.accepted u) hcons))⟩

/-- An answer of RECV that begins with OK is that of an accepted window. -/
theorem parseWindow_of_recv_ok {s t : State} {w tl : List Byte} (hexec : exec (.recv w) s = .next t)
    (ht : t.rspq = s.rspq ++ 0x00 :: tl) :
    ∃ u c, parseWindow s.cfg.rinSize (s.ctrl.getLsbD 0) w = .accepted u c ∧
      tl = halfBytes (half u.length) ++ (halfBytes (half c) ++ u) := by
  have hreply : (parseWindow s.cfg.rinSize (s.ctrl.getLsbD 0) w).reply = 0x00 :: tl := by
    rw [exec_recv rfl] at hexec
    cases hexec
    exact List.append_cancel_left ht
  obtain ⟨st, hst, hparse⟩ | ⟨u, c, -, hparse⟩ := parseWindow_cases s.cfg.rinSize (s.ctrl.getLsbD 0) w
  · rw [hparse] at hreply
    exact absurd ((Status.code_eq_zero_iff st).1 (List.cons.inj hreply).1) hst
  · rw [hparse] at hreply
    exact ⟨u, c, hparse, (List.cons.inj hreply).2.symm⟩

/-- Settles O32: an OK answer is that of an accepted window, which passed every check. -/
theorem consumedBytesAreOneFrame : Obligations.ConsumedBytesAreOneFrame := by
  intro s t w tl _ hexec ht
  obtain ⟨u, c, hparse, htl⟩ := parseWindow_of_recv_ok hexec ht
  obtain ⟨hf, hu, hl, hc, rfl⟩ := checks_of_parseWindow_accepted hparse
  have hlen := six_le_unescaped_length hu (ten_le_of_frontChecks_none hf)
  have hle := lengthOk_le hl
  have hd : declaredLength u + 4 ≤ u.length := by omega
  obtain ⟨-, hcons, htake, hwhole⟩ := consumedCount_spec hu hd
  refine ⟨u, _, declaredLength u, hu, rfl, htl, hd, hcons, htake, (checksumOk_iff _ _).1 hc, fun hstrict => ?_⟩
  have hexact : u.length = declaredLength u + 4 := by
    rw [hstrict, lengthOk_iff] at hl
    simp only [true_and, Bool.false_eq_true, false_and, or_false] at hl
    omega
  exact ⟨hwhole hexact, hexact⟩

/-! ### A frame with any checksum byte (R70, R130) -/

/-- F[1..N+7] of a frame: the length field, then the body. -/
def frameMiddle (addr : Half) (p : List Byte) : List Byte := [0x00, BitVec.ofNat 8 (p.length + 5)] ++ frameBody addr p

/-- The checksum byte of the frame that SEND builds. -/
def frameChecksum (addr : Half) (p : List Byte) : Byte := complement (cksum (frameBody addr p))

/-- The frame of `buildFrame` with `c` in the place of its checksum byte. -/
def frameWith (addr : Half) (p : List Byte) (c : Byte) : List Byte := delimiter :: (frameMiddle addr p ++ [c])

section Frame

variable (addr : Half) (p : List Byte)

theorem buildFrame_eq_frameWith : buildFrame addr p = frameWith addr p (frameChecksum addr p) := rfl

theorem frameWith_length (c : Byte) : (frameWith addr p c).length = p.length + 9 := by
  simp [frameWith, frameMiddle, frameBody_length]

theorem escape_frameWith (c : Byte) :
    escape (frameWith addr p c) = delimiter :: ((frameMiddle addr p).flatMap escByte ++ escByte c) := by
  unfold frameWith
  rw [escape_cons, List.flatMap_append, List.flatMap_singleton]

theorem getLastD_buildFrame : (buildFrame addr p).getLastD 0 = frameChecksum addr p := by
  rw [buildFrame_eq_frameWith]
  exact List.getLastD_concat (l := delimiter :: frameMiddle addr p)

theorem declaredLength_frameWith (c : Byte) (hp : p.length ≤ 250) :
    declaredLength (frameWith addr p c) = p.length + 5 := by
  show 0 * 256 + (BitVec.ofNat 8 (p.length + 5)).toNat = _
  rw [BitVec.toNat_ofNat]
  omega

/-- A frame passes the checksum check with the byte that SEND puts there, and with no other. -/
theorem checksumOk_frameWith_iff (c : Byte) :
    checksumOk (frameWith addr p c) (p.length + 5) = true ↔ c = frameChecksum addr p := by
  have hrange : ((frameWith addr p c).drop 3).take (p.length + 5 + 1) = frameBody addr p ++ [c] :=
    List.take_of_length_le (l := frameBody addr p ++ [c]) (by simp [frameBody_length])
  rw [checksumOk_iff, hrange, cksum_append, cksum_singleton]
  unfold frameChecksum
  rw [complement_eq_sub]
  exact eq_sub_iff_add_eq'.symm

/-- A window that passed the front checks and unescapes to a frame is accepted whole, unless its checksum byte is
wrong. -/
theorem parseWindow_of_unescape_frameWith {n : Nat} {tolerant : Bool} {w : List Byte} {c : Byte} (hp : p.length ≤ 250)
    (hf : frontChecks n w = none) (hu : unescape w = some (frameWith addr p c)) :
    parseWindow n tolerant w =
      if c = frameChecksum addr p then .accepted (frameWith addr p c) w.length else .rejected .checksumMismatch := by
  have hd := declaredLength_frameWith addr p c hp
  have hlen := frameWith_length addr p c
  have hl : lengthOk tolerant (declaredLength (frameWith addr p c)) (frameWith addr p c).length = true := by
    rw [lengthOk_iff, hd, hlen]
    cases tolerant <;> simp
  have hsum := checksumOk_frameWith_iff addr p c
  rw [← hd] at hsum
  split
  · next hc =>
    obtain ⟨-, -, -, hwhole⟩ := consumedCount_spec hu (d := p.length + 5) hlen.ge
    rw [parseWindow_accepted hf hu hl (hsum.2 hc), hd, hwhole hlen]
  · next hc => exact parseWindow_checksumMismatch hf hu hl (mt hsum.1 hc)

/-! ### The length of the wire frame (R77, R132) -/

theorem wireFrame_length :
    (escape (buildFrame addr p)).length = p.length + 9 + (buildFrame addr p).tail.countP isReserved := by
  have hlen := buildFrame_length addr p
  show ((buildFrame addr p).tail.flatMap escByte).length + 1 = _
  rw [flatMap_escByte_length, List.length_tail, hlen]
  omega

/-- Of the bytes after the delimiter only the Length LSB, the address, the payload and the checksum can be reserved. -/
theorem countP_isReserved_tail_buildFrame :
    (buildFrame addr p).tail.countP isReserved =
      [BitVec.ofNat 8 (p.length + 5), hiByte addr, loByte addr, frameChecksum addr p].countP isReserved +
        p.countP isReserved := by
  have h0 : isReserved 0x00 = false := rfl
  have h1 : isReserved 0x01 = false := rfl
  simp only [buildFrame_eq_frameWith, frameWith, frameMiddle, frameBody, List.tail_cons, List.cons_append,
    List.nil_append, List.countP_append, List.countP_cons, List.countP_nil, h0, h1]
  simp only [Bool.false_eq_true, if_false]
  omega

theorem wireFrame_length_le_of_lsb : (escape (buildFrame addr p)).length ≤
    2 * p.length + 12 + if isReserved (BitVec.ofNat 8 (p.length + 5)) = true then 1 else 0 := by
  have hfields := List.countP_le_length (p := isReserved) (l := [hiByte addr, loByte addr, frameChecksum addr p])
  have hpayload := List.countP_le_length (p := isReserved) (l := p)
  rw [wireFrame_length, countP_isReserved_tail_buildFrame, List.countP_cons]
  simp only [List.length_cons, List.length_nil] at hfields
  omega

theorem wireFrame_length_le : (escape (buildFrame addr p)).length ≤ 2 * p.length + 13 := by
  have := wireFrame_length_le_of_lsb addr p
  split at this <;> omega

end Frame

/-- R132's bound at the default MAX_PAYLOAD: with 91 bytes of payload the Length LSB is 0x60, which is not reserved. -/
theorem wireFrame_length_le_194 (addr : Half) {p : List Byte} (hp : p.length ≤ 91) :
    (escape (buildFrame addr p)).length ≤ 194 := by
  have hle := wireFrame_length_le_of_lsb addr p
  obtain hlt | heq := Nat.lt_or_eq_of_le hp
  · split at hle <;> omega
  · have hlsb : ¬isReserved (BitVec.ofNat 8 (p.length + 5)) = true := by rw [heq]; decide
    rw [if_neg hlsb] at hle
    omega

/-! ### No reserved byte stands bare after the delimiter (R74) -/

/-- No 0x7E, 0x11 or 0x13 stands in `w`, and every 0x7D begins an escape pair of a reserved byte. -/
def NoBareReserved (w : List Byte) : Prop :=
  ∀ (k : Nat) (b : Byte), w[k]? = some b →
    b ≠ 0x7E ∧ b ≠ 0x11 ∧ b ≠ 0x13 ∧
      (b = 0x7D → ∃ c : Byte, w[k + 1]? = some c ∧ (c = 0x5E ∨ c = 0x5D ∨ c = 0x31 ∨ c = 0x33))

theorem NoBareReserved.cons_plain {b : Byte} {w : List Byte} (hb : ¬isReserved b = true) (h : NoBareReserved w) :
    NoBareReserved (b :: w) := by
  intro k a ha
  cases k with
  | zero =>
    cases ha
    simp only [isReserved_iff, not_or] at hb
    obtain ⟨h7E, h7D, h11, h13⟩ := hb
    exact ⟨h7E, h11, h13, fun e => absurd e h7D⟩
  | succ k => exact h k a ha

theorem NoBareReserved.cons_pair {c : Byte} {w : List Byte} (hc : c = 0x5E ∨ c = 0x5D ∨ c = 0x31 ∨ c = 0x33)
    (h : NoBareReserved w) : NoBareReserved (escByteValue :: c :: w) := by
  have hplain : ¬isReserved c = true := by obtain rfl | rfl | rfl | rfl := hc <;> decide
  intro k a ha
  cases k with
  | zero =>
    cases ha
    exact ⟨by decide, by decide, by decide, fun _ => ⟨c, rfl, hc⟩⟩
  | succ k => exact h.cons_plain hplain k a ha

theorem isReserved_xor_mask {b : Byte} (h : isReserved b = true) :
    b ^^^ xorMask = 0x5E ∨ b ^^^ xorMask = 0x5D ∨ b ^^^ xorMask = 0x31 ∨ b ^^^ xorMask = 0x33 := by
  obtain rfl | rfl | rfl | rfl := (isReserved_iff b).1 h <;> decide

theorem noBareReserved_flatMap_escByte (r : List Byte) : NoBareReserved (r.flatMap escByte) := by
  induction r with
  | nil => exact fun k b hb => by cases hb
  | cons b r ih =>
    rw [List.flatMap_cons]
    by_cases hb : isReserved b = true
    · rw [escByte_of_reserved hb]
      exact ih.cons_pair (isReserved_xor_mask hb)
    · rw [escByte_of_not_reserved hb]
      exact ih.cons_plain hb

/-- Settles O30: the delimiter stays, and after it stands the escaped rest of the frame. -/
theorem wireFrameHasNoBareReservedByte : Obligations.WireFrameHasNoBareReservedByte := by
  refine fun addr p _ => ⟨rfl, buildFrame_length addr p, wireFrame_length addr p, wireFrame_length_le addr p,
    wireFrame_length_le_194 addr, fun k b hk hb => ?_, unescapeInvertsEscape _⟩
  cases k with
  | zero => cases hk
  | succ k => exact noBareReserved_flatMap_escByte (buildFrame addr p).tail k b hb

/-! ### RECV of what SEND built (R142) -/

/-- A frame that SEND can build has its length in one byte, and its wire frame fits RECV's window. -/
theorem payload_fits {c : Config} {N : Nat} (hl : c.Legal) (h : N ≤ c.maxPayload) :
    N ≤ 250 ∧ 2 * N + 13 ≤ c.rinSize := by
  obtain ⟨-, -, hmin, hmax, hrin, -⟩ := hl
  unfold Config.maxPayload at h
  omega

/-- R142, C2: the wire frame reaches RECV's least length unless the payload is empty and nothing is escaped. -/
theorem ten_le_wireFrame_length_iff (addr : Half) (p : List Byte) :
    10 ≤ (escape (buildFrame addr p)).length ↔
      p ≠ [] ∨ isReserved (hiByte addr) = true ∨ isReserved (loByte addr) = true ∨
        isReserved ((buildFrame addr p).getD 8 0) = true := by
  rw [wireFrame_length]
  cases p with
  | cons b r =>
    refine iff_of_true ?_ (.inl (List.cons_ne_nil b r))
    rw [List.length_cons]
    omega
  | nil =>
    have hlsb : ¬isReserved (BitVec.ofNat 8 5) = true := by decide
    have hck : (buildFrame addr []).getD 8 0 = frameChecksum addr [] := rfl
    have hcount : (buildFrame addr []).tail.countP isReserved =
        [hiByte addr, loByte addr, frameChecksum addr []].countP isReserved := by
      rw [countP_isReserved_tail_buildFrame]
      exact List.countP_cons_of_neg hlsb
    rw [hck, hcount, List.length_nil, Nat.zero_add, Nat.succ_le_iff, Nat.lt_add_right_iff_pos, List.countP_pos_iff]
    simp

theorem parseWindow_wireFrame (addr : Half) {p : List Byte} {n : Nat} {tolerant : Bool} (hp : p.length ≤ 250)
    (hf : frontChecks n (escape (buildFrame addr p)) = none) :
    parseWindow n tolerant (escape (buildFrame addr p)) =
      .accepted (buildFrame addr p) (escape (buildFrame addr p)).length :=
  (parseWindow_of_unescape_frameWith addr p hp hf (unescapeInvertsEscape (buildFrame addr p))).trans (if_pos rfl)

/-- Settles O33: RECV unescapes SEND's output to the frame, whose checksum byte is the one SEND put there. -/
theorem recvRecoversWhatSendBuilt : Obligations.RecvRecoversWhatSendBuilt := by
  intro s addr p hl hp
  obtain ⟨hN, hfits⟩ := payload_fits hl hp
  have hsend := exec_send addr p s
  rw [sendReply_of_le hp] at hsend
  obtain ⟨t, ht⟩ : ∃ t, t = finish .ok (half (escape (buildFrame addr p)).length) (escape (buildFrame addr p)) s :=
    ⟨_, rfl⟩
  have hn : (escape (buildFrame addr p)).length ≤ t.cfg.rinSize := by
    rw [ht, finish_cfg]
    exact (wireFrame_length_le addr p).trans hfits
  refine ⟨escape (buildFrame addr p), buildFrame addr p, t, hsend.trans (congrArg _ ht.symm), ht, rfl, rfl,
    be16_hiByte_loByte addr, List.take_left, fun hcond => ?_, fun hcond => ?_⟩
  · have hf := frontChecks_pass hn rfl ((ten_le_wireFrame_length_iff addr p).2 hcond)
    rw [← buildFrame_length addr p]
    exact exec_recv (parseWindow_wireFrame addr hN hf)
  · rw [← ten_le_wireFrame_length_iff] at hcond
    exact exec_recv (parseWindow_front (frontChecks_short hn rfl (Nat.lt_of_not_le hcond)))

/-! ### A wire frame with a changed last byte (R143) -/

theorem Unescapes.unescapeRest_append {r v : List Byte} (h : Unescapes r v) (q : List Byte) :
    unescapeRest (r ++ q) = (unescapeRest q).map (v ++ ·) := by
  induction h with
  | nil => exact Option.map_id'.symm
  | pair c _ ih => rw [List.cons_append, List.cons_append, unescapeRest_pair, ih, Option.map_map]; rfl
  | plain hb _ ih => rw [List.cons_append, unescapeRest_plain hb, ih, Option.map_map]; rfl

/-- `w` with the bits of `x` flipped in its last byte. -/
def flipLast (w : List Byte) (x : Byte) : List Byte := w.dropLast ++ [w.getLastD 0 ^^^ x]

theorem flipLast_concat (w : List Byte) (c x : Byte) : flipLast (w ++ [c]) x = w ++ [c ^^^ x] := by
  unfold flipLast
  rw [List.dropLast_concat, List.getLastD_concat]

/-- The last byte of the wire frame is the checksum sent as itself or the second byte of its pair; flipping it leaves
the rest of the wire frame. -/
theorem flipLast_wireFrame (addr : Half) (p : List Byte) (c x : Byte) :
    flipLast (escape (frameWith addr p c)) x =
      delimiter :: ((frameMiddle addr p).flatMap escByte ++
        if isReserved c = true then [escByteValue, c ^^^ xorMask ^^^ x] else [c ^^^ x]) := by
  rw [escape_frameWith]
  split
  · next hc =>
    rw [escByte_of_reserved hc, List.append_cons, ← List.cons_append, flipLast_concat, List.cons_append,
      List.append_assoc]
    rfl
  · next hc =>
    rw [escByte_of_not_reserved hc]
    exact flipLast_concat (delimiter :: (frameMiddle addr p).flatMap escByte) c x

theorem flipLast_length {w : List Byte} (hw : w ≠ []) (x : Byte) : (flipLast w x).length = w.length := by
  have := List.length_pos_iff.2 hw
  unfold flipLast
  rw [List.length_append, List.length_dropLast, List.length_singleton]
  omega

/-- A checksum byte sent as itself ends the wire frame. -/
theorem getLastD_wireFrame (addr : Half) (p : List Byte) {c : Byte} (hc : ¬isReserved c = true) :
    (escape (frameWith addr p c)).getLastD 0 = c := by
  rw [escape_frameWith, escByte_of_not_reserved hc]
  exact List.getLastD_concat (l := delimiter :: (frameMiddle addr p).flatMap escByte)

/-- The flipped wire frame unescapes to the frame with the flipped checksum byte, unless a checksum byte sent as itself
became 0x7D. -/
theorem unescape_flipLast_wireFrame (addr : Half) (p : List Byte) (c x : Byte) :
    unescape (flipLast (escape (frameWith addr p c)) x) =
      if (escape (frameWith addr p c)).getLastD 0 ^^^ x = 0x7D ∧ isReserved c = false then none
      else some (frameWith addr p (c ^^^ x)) := by
  rw [flipLast_wireFrame, unescape_cons, (unescapes_flatMap_escByte _).unescapeRest_append]
  by_cases hc : isReserved c = true
  · have hx : c ^^^ xorMask ^^^ x ^^^ xorMask = c ^^^ x := by
      rw [BitVec.xor_assoc, BitVec.xor_comm x, ← BitVec.xor_assoc, xorMask_involutive]
    rw [if_pos hc, unescapeRest_pair, hx, if_neg fun h => Bool.false_ne_true (h.2.symm.trans hc)]
    rfl
  · rw [if_neg hc, getLastD_wireFrame addr p hc]
    by_cases h : c ^^^ x = escByteValue
    · rw [if_pos ⟨h, Bool.eq_false_iff.2 hc⟩, h]
      rfl
    · rw [if_neg fun hand => h hand.1, unescapeRest_plain h]
      rfl

theorem xor_two_pow_ne (c : Byte) {k : Nat} (hk : k < 8) : c ^^^ BitVec.ofNat 8 (2 ^ k) ≠ c := by
  have hbit : ∀ j < 8, BitVec.ofNat 8 (2 ^ j) ≠ 0 := by decide
  exact fun h => hbit k hk (xor_left_eq_self_iff.1 h)

/-- Settles O34: the flipped window has the delimiter and the length of the wire frame, and unescapes, if it does, to
the frame with a wrong checksum byte. -/
theorem flippedLastBitIsRejected : Obligations.FlippedLastBitIsRejected := by
  intro s addr p k hl hp hk W last W'
  obtain ⟨hN, hfits⟩ := payload_fits hl hp
  have hlenW : W'.length = W.length := flipLast_length (List.cons_ne_nil _ _) _
  have hmin : 9 ≤ W.length := (Nat.le_add_left 9 _).trans ((Nat.le_add_right _ _).trans (wireFrame_length addr p).ge)
  have hn : W'.length ≤ s.cfg.rinSize := hlenW.trans_le ((wireFrame_length_le addr p).trans hfits)
  have hhead : W'.head? = some 0x7E := congrArg List.head? (flipLast_wireFrame addr p (frameChecksum addr p) _)
  have hu : unescape W' = if last = 0x7D ∧ isReserved (frameChecksum addr p) = false then none
      else some (frameWith addr p (frameChecksum addr p ^^^ BitVec.ofNat 8 (2 ^ k))) :=
    unescape_flipLast_wireFrame addr p (frameChecksum addr p) _
  rw [getLastD_buildFrame]
  refine ⟨fun h9 => ?_, fun h9 hlast hplain => ?_, fun h9 hother => ?_⟩
  · exact exec_recv (parseWindow_front (frontChecks_short hn hhead (by omega)))
  · rw [if_pos ⟨hlast, hplain⟩] at hu
    exact exec_recv (parseWindow_dangling (frontChecks_pass hn hhead (by omega)) hu)
  · rw [if_neg hother] at hu
    have hparse := parseWindow_of_unescape_frameWith addr p (tolerant := s.ctrl.getLsbD 0) hN
      (frontChecks_pass hn hhead (by omega)) hu
    rw [if_neg (xor_two_pow_ne _ hk)] at hparse
    exact exec_recv hparse

end Sys2Proof.Machine
end

section
/-! PROOFS. The statements of spec/43_ringbuffer.md: what each ring command and a push does (R150 to R162), the first-in
first-out order (R163), the capacity (R164), full and empty rings (R165), and that pushes leave the copied window alone
(R167). -/

namespace Sys2Proof.Machine

/-! ### SIZE and the flags as numbers (R26, R30) -/

theorem size_ne_zero_iff (s : State) : s.size ≠ 0 ↔ 0 < s.size.toNat := by
  rw [Nat.pos_iff_ne_zero, Ne, Ne, BitVec.toNat_eq]
  rfl

theorem ringEmpty_eq_decide (s : State) : ringEmpty s = decide (s.size = 0) :=
  Bool.eq_iff_iff.2 (by rw [ringEmpty, beq_iff_eq, decide_eq_true_iff, BitVec.toNat_eq]; rfl)

theorem ringFull_eq_decide (s : State) : ringFull s = decide (s.size.toNat = s.cfg.cap) := rfl

theorem size_le_cap {s : State} (hp : PointersOk s) : s.size.toNat ≤ s.cfg.cap := by
  obtain ⟨-, -, -, hsize, -⟩ := hp
  exact hsize

/-- Under the pointer invariant a ring is full or has room. -/
theorem full_or_room {s : State} (hp : PointersOk s) : s.size.toNat = s.cfg.cap ∨ s.size.toNat < s.cfg.cap :=
  Nat.eq_or_lt_of_le (size_le_cap hp)

theorem half_toNat_add_one (w : Half) : half (w.toNat + 1) = w + 1 := by
  apply BitVec.eq_of_toNat_eq
  simp [half]

theorem half_toNat_sub_one {w : Half} (h : 0 < w.toNat) : half (w.toNat - 1) = w - 1 := by
  unfold half
  bv_omega

theorem eq_half_of_toNat_eq {w : Half} {n : Nat} (h : w.toNat = n) : w = half n := by
  rw [← h, half_toNat_self]

/-- The response of RB.EMPTY and RB.FULL. -/
theorem response_flagBit (b : Bool) : response .ok (flagBit b) [] = [0x00, 0x00, if b then 0x01 else 0x00] := by
  cases b <;> rfl

/-- A position counted from TAIL is one counted from HEAD, past the bytes held. -/
theorem tail_add_mod {s : State} (hp : PointersOk s) (k : Nat) :
    (s.tail.toNat + k) % s.cfg.cap = phys s (s.size.toNat + k) := by
  rw [tail_eq_phys hp]
  unfold phys
  rw [Nat.mod_add_mod, Nat.add_assoc]

/-! ### Storing one byte: RB.ENQ and a push (R150, R151, R162) -/

section Enqueue

variable {s : State} (b : Byte)

/-- `stored` with SIZE and TAIL as the statements write them. -/
theorem stored_eq : stored b s = { s with
    store := Memory.write s.store s.tail.toNat b, tail := BitVec.ofNat 16 ((s.tail.toNat + 1) % s.cfg.cap),
    size := s.size + 1 } := by
  unfold stored
  rw [half_toNat_add_one]
  rfl

theorem execRbEnq_full (h : s.size.toNat = s.cfg.cap) : execRbEnq b s = .next (fail .bufferFull s) := by
  unfold execRbEnq
  rw [enqueue_full b h]

theorem execRbEnq_stores (hp : PointersOk s) (h : s.size.toNat < s.cfg.cap) :
    execRbEnq b s = .next (finish .ok 1 [] (stored b s)) := by
  unfold execRbEnq
  rw [enqueue_stores b hp h]

theorem pushByte_full (h : s.size.toNat = s.cfg.cap) : pushByte b s = .next { s with acks := s.acks ++ [false] } := by
  unfold pushByte
  rw [enqueue_full b h]

theorem pushByte_stores (hp : PointersOk s) (h : s.size.toNat < s.cfg.cap) :
    pushByte b s = .next { stored b s with acks := s.acks ++ [true] } := by
  unfold pushByte
  rw [enqueue_stores b hp h]
  rfl

end Enqueue

/-- Settles O36: both cases are the enqueue's, followed by a response. -/
theorem enqueueStoresAtTail : Obligations.EnqueueStoresAtTail := by
  refine ⟨fun _ _ => rfl, fun s b hp hm => ⟨execRbEnq_full b, fun hlt => ⟨_, ?_, fun a => Memory.read_write hm _ a b⟩⟩⟩
  refine (execRbEnq_stores b hp hlt).trans ?_
  rw [stored_eq]
  rfl

/-- Settles O8: the step of a push is the push, and both its cases are the enqueue's. -/
theorem pushStepEnqueuesAndAcknowledges : Obligations.PushStepEnqueuesAndAcknowledges := by
  intro s b es hl hp hm hi
  rw [step_push hl hi]
  refine ⟨pushByte_full (s := withInputs es s) b, fun hlt => ⟨_, ?_, fun a => Memory.read_write hm _ a b⟩⟩
  refine (pushByte_stores (s := withInputs es s) b hp hlt).trans ?_
  rw [stored_eq]

/-! ### Storing a sequence: RB.ENQSEQ (R153) -/

theorem execRbEnqseq_of_enqueueAll {d : List Byte} {s t : State} {n : Nat} (h : enqueueAll d s = some (n, t)) :
    execRbEnqseq d s = .next (finish (if n < d.length then .bufferFull else .ok) (half n) [] t) := by
  unfold execRbEnqseq
  rw [h]
  dsimp only
  split <;> rfl

theorem enqueueAll_full {s : State} (d : List Byte) (h : s.size.toNat = s.cfg.cap) : enqueueAll d s = some (0, s) := by
  cases d with
  | nil => rfl
  | cons b r =>
    unfold enqueueAll
    rw [enqueue_full b h]

/-- The bytes that RB.ENQSEQ accepted stand in the slots from the old TAIL on. -/
theorem enqueued_slots {s t : State} {d : List Byte} {k : Nat} (hp : PointersOk s) (hcfg : t.cfg = s.cfg)
    (hhead : t.head = s.head) (hsize : t.size.toNat = s.size.toNat + min d.length (s.cfg.cap - s.size.toNat))
    (hq : contents t = contents s ++ d.take (s.cfg.cap - s.size.toNat))
    (hk : k < min d.length (s.cfg.cap - s.size.toNat)) :
    d[k]? = some (Memory.read t.store ((s.tail.toNat + k) % s.cfg.cap)) := by
  have hphys : (s.tail.toNat + k) % s.cfg.cap = phys t (s.size.toNat + k) := by
    rw [tail_add_mod hp, phys, phys, hcfg, hhead]
  have hread : (contents t)[s.size.toNat + k]? = some (Memory.read t.store (phys t (s.size.toNat + k))) := by
    rw [contents_getElem?, if_pos (by omega)]
  rw [hphys, ← hread, hq, List.getElem?_append_right (by simp), contents_length, Nat.add_sub_cancel_left,
    List.getElem?_take_of_lt (by omega)]

/-- Settles O38, from what R153's loop does: TAIL by the pointer invariant after it, the slots by the contents. -/
theorem enqueueSequenceAcceptsWhatFits : Obligations.EnqueueSequenceAcceptsWhatFits := by
  refine ⟨fun hi lo d r hd => takeTail_exact r .rbEnqseq (hd.trans (be16_toNat hi lo).symm), fun s d hp hs => ?_⟩
  intro n
  obtain ⟨t, hrun, hpt, -, -, hq, hframe, hsize, hother⟩ := enqueueAll_spec d hp hs
  have hcfg : t.cfg = s.cfg := by rw [hframe]
  have hhead : t.head = s.head := by rw [hframe]
  have htail : t.tail = half ((s.tail.toNat + n) % s.cfg.cap) :=
    eq_half_of_toNat_eq (by rw [tail_add_mod hp, tail_eq_phys hpt, hsize, phys, phys, hcfg, hhead])
  refine ⟨t.store, ?_, fun k hk => enqueued_slots hp hcfg hhead hsize hq hk, fun a ha => hother a fun k hk => ?_⟩
  · refine (execRbEnqseq_of_enqueueAll hrun).trans ?_
    rw [hframe, htail, eq_half_of_toNat_eq hsize]
    split <;> rfl
  · rw [← tail_add_mod hp]
    exact ha k hk

/-! ### Taking the oldest byte: RB.DEQ (R152) -/

theorem execRbDeq_empty {s : State} (h : s.size = 0) : execRbDeq s = .next (fail .bufferUnderrun s) :=
  if_pos ((ringEmpty_eq_decide s).trans (decide_eq_true h))

theorem execRbDeq_takes {s : State} (hp : PointersOk s) (h : s.size ≠ 0) :
    execRbDeq s = .next (finish .ok (zext16 (Memory.read s.store s.head.toNat)) []
      (dropped 1 (Memory.write s.store s.head.toNat 0x00) s)) := by
  have ⟨_, _, hhead, _⟩ := hp
  unfold execRbDeq
  rw [ringEmpty_eq_decide, decide_eq_false h, readSlot_of_lt hhead, writeSlot_of_lt _ hhead]
  rfl

/-- Settles O37: by whether the ring is empty. -/
theorem dequeueTakesAndZeroesTheOldest : Obligations.DequeueTakesAndZeroesTheOldest := by
  refine ⟨fun _ => rfl, fun s hp hm => ⟨execRbDeq_empty, fun hne => ⟨_, ?_, fun a => Memory.read_write hm _ a 0⟩⟩⟩
  refine (execRbDeq_takes hp hne).trans ?_
  rw [finish_eq, response_zext16, dropped, half_toNat_sub_one ((size_ne_zero_iff s).1 hne)]
  rfl

/-! ### Reading without taking: RB.PEEK and RB.COPY (R154, R155, R166) -/

section Reads

variable {s : State} {x : Half}

theorem execRbPeek_empty (h : s.size = 0) : execRbPeek x s = .next (fail .bufferUnderrun s) :=
  if_pos ((ringEmpty_eq_decide s).trans (decide_eq_true h))

theorem execRbPeek_outOfRange (h : s.size ≠ 0) (hx : s.size.toNat ≤ x.toNat) :
    execRbPeek x s = .next (fail .outOfRange s) := by
  unfold execRbPeek
  rw [ringEmpty_eq_decide, decide_eq_false h, if_pos hx]
  rfl

theorem execRbPeek_reads (hp : PointersOk s) (hx : x.toNat < s.size.toNat) :
    execRbPeek x s = .next (finish .ok (zext16 (Memory.read s.store (phys s x.toNat))) [] s) := by
  have hne : s.size ≠ 0 := (size_ne_zero_iff s).2 (Nat.zero_lt_of_lt hx)
  unfold execRbPeek
  rw [ringEmpty_eq_decide, decide_eq_false hne, if_neg (Nat.not_le.2 hx), readSlot_of_lt (phys_lt hp.1 _)]
  rfl

theorem execRbCopy_empty (h : s.size = 0) : execRbCopy x s = .next (fail .bufferUnderrun s) :=
  if_pos ((ringEmpty_eq_decide s).trans (decide_eq_true h))

theorem execRbCopy_outOfRange (h : s.size ≠ 0) (hx : s.size.toNat ≤ x.toNat) :
    execRbCopy x s = .next (fail .outOfRange s) := by
  unfold execRbCopy
  rw [ringEmpty_eq_decide, decide_eq_false h, if_pos hx]
  rfl

/-- The bytes at `n` logical positions from `k` on, which RB.COPY answers. -/
def copyFrom (s : State) (k n : Nat) : List Byte := (List.range n).map fun j => Memory.read s.store (phys s (k + j))

theorem execRbCopy_reads (hp : PointersOk s) (hx : x.toNat < s.size.toNat) :
    execRbCopy x s = .next (finish .ok s.size (copyFrom s x.toNat s.size.toNat) s) := by
  have hne : s.size ≠ 0 := (size_ne_zero_iff s).2 (Nat.zero_lt_of_lt hx)
  unfold execRbCopy
  rw [ringEmpty_eq_decide, decide_eq_false hne, if_neg (Nat.not_le.2 hx), readRun_spec hp.1]
  rfl

theorem copyFrom_length (s : State) (k n : Nat) : (copyFrom s k n).length = n := by simp [copyFrom]

theorem copyFrom_getElem? {j n : Nat} (k : Nat) (h : j < n) :
    (copyFrom s k n)[j]? = some (Memory.read s.store (phys s (k + j))) := by
  simp [copyFrom, h]

/-- A logical position below SIZE holds a byte of the contents. -/
theorem read_phys_of_lt_size {j : Nat} (h : j < s.size.toNat) :
    some (Memory.read s.store (phys s j)) = (contents s)[j]? := by
  rw [contents_getElem?, if_pos h]

/-- A logical position a whole storage further on is the same slot. -/
theorem read_phys_of_cap_le {j : Nat} (hj : s.cfg.cap ≤ j) (h : j - s.cfg.cap < s.size.toNat) :
    some (Memory.read s.store (phys s j)) = (contents s)[j - s.cfg.cap]? := by
  rw [← read_phys_of_lt_size h, ← phys_add_cap s (j - s.cfg.cap), Nat.sub_add_cancel hj]

end Reads

/-- Settles O39, by the order of RB.PEEK's checks. -/
theorem peekReadsALogicalPosition : Obligations.PeekReadsALogicalPosition := by
  refine ⟨fun _ _ _ => rfl, fun s off hp => ⟨execRbPeek_empty, execRbPeek_outOfRange, fun hoff => ?_⟩⟩
  refine (execRbPeek_reads hp hoff).trans ?_
  rw [finish_eq, response_zext16]
  rfl

/-- Settles O40: the bytes are `copyFrom`, read below SIZE, in the free slots, and after a whole turn. -/
theorem copyReadsAroundTheStorage : Obligations.CopyReadsAroundTheStorage := by
  refine ⟨fun _ _ _ => rfl, fun s start hp => ⟨execRbCopy_empty, execRbCopy_outOfRange, fun hstart => ?_⟩⟩
  have hsize := size_le_cap hp
  refine ⟨copyFrom s start.toNat s.size.toNat, execRbCopy_reads hp hstart, copyFrom_length _ _ _, fun k hk => ?_,
    fun hfree k hk => ?_⟩ <;> rw [copyFrom_getElem? _ hk]
  · rw [Nat.add_assoc]
    rfl
  · refine ⟨read_phys_of_lt_size, fun hge hlt => congrArg some (hfree _ hlt hge), fun hcap => ?_⟩
    exact read_phys_of_cap_le hcap (by omega)

/-! ### RB.CLEAR (R156) -/

/-- Settles O41, which is `execRbClear_spec` with the number of removed bytes as a minimum. -/
theorem clearZeroesTheOldestAndReportsTheCount : Obligations.ClearZeroesTheOldestAndReportsTheCount := by
  refine ⟨fun _ _ _ => rfl, fun s upto hp hs => ?_⟩
  obtain ⟨m, hrun, -, hzero, hold⟩ := execRbClear_spec upto hp hs
  rw [clearCount_eq_min] at hrun hzero hold
  exact ⟨m, hrun, hzero, hold⟩

/-! ### The registers' reports (R157 to R161) -/

theorem exec_rbFull (s : State) : exec .rbFull s =
    .next { s with rspq := s.rspq ++ [0x00, 0x00, if s.size.toNat = s.cfg.cap then 0x01 else 0x00] } := by
  show Host.Outcome.next (finish .ok (flagBit (ringFull s)) [] s) = _
  rw [finish_eq, response_flagBit, ringFull_eq_decide]
  simp only [decide_eq_true_iff]

theorem exec_rbEmpty (s : State) : exec .rbEmpty s =
    .next { s with rspq := s.rspq ++ [0x00, 0x00, if s.size = 0 then 0x01 else 0x00] } := by
  show Host.Outcome.next (finish .ok (flagBit (ringEmpty s)) [] s) = _
  rw [finish_eq, response_flagBit, ringEmpty_eq_decide]
  simp only [decide_eq_true_iff]

/-- Settles O42: three registers as they stand, and two flags. -/
theorem ringRegistersAreReported : Obligations.RingRegistersAreReported :=
  ⟨fun _ => ⟨rfl, rfl, rfl, rfl, rfl⟩, fun s => ⟨rfl, rfl, rfl, exec_rbEmpty s, exec_rbFull s⟩⟩

/-! ### Full and empty rings (R165) -/

/-- Settles O43, by the case of each command on a full or on an empty ring. -/
theorem fullAndEmptyRingsAreNotMutated : Obligations.FullAndEmptyRingsAreNotMutated := by
  refine fun s => ⟨fun hfull => ⟨fun b => execRbEnq_full b hfull, fun d => ?_, fun b => pushByte_full b hfull⟩,
    fun hzero => ?_⟩
  · refine (execRbEnqseq_of_enqueueAll (enqueueAll_full d hfull)).trans ?_
    cases d <;> rfl
  · have hempty : s.size = 0 := BitVec.eq_of_toNat_eq hzero
    exact ⟨execRbDeq_empty hempty, fun _ => execRbPeek_empty hempty, fun _ => execRbCopy_empty hempty⟩

/-! ### Runs of atomic steps -/

theorem atomicRun_cons {a : AtomicStep} {s t : State} (h : atomic a s = .next t) (as : List AtomicStep) :
    atomicRun (a :: as) s = atomicRun as t := by
  simp only [atomicRun, h]

/-- What every atomic step keeps, every run keeps. -/
theorem atomicRun_keeps {P : State → Prop} (hstep : ∀ a s t, P s → atomic a s = .next t → P t)
    (as : List AtomicStep) : ∀ {s t : State}, P s → atomicRun as s = .next t → P t := by
  induction as with
  | nil =>
    intro s t hs h
    cases h
    exact hs
  | cons a r ih =>
    intro s t hs h
    unfold atomicRun at h
    split at h
    · next u hu => exact ih (hstep a s u hs hu) h
    · cases h
    · cases h

theorem atomic_ringOk (a : AtomicStep) (s t : State) (hring : PointersOk s ∧ StoreOk s) (h : atomic a s = .next t) :
    PointersOk t ∧ StoreOk t := by
  obtain ⟨hp, hs⟩ := hring
  cases a with
  | command i =>
    have hr := exec_ringHolds hp hs h
    exact ⟨hr.pointers, hr.store⟩
  | push b =>
    have hr := pushByte_ringHolds hp hs h
    exact ⟨hr.pointers, hr.store⟩

/-! ### Capacity (R164) -/

/-- As many RB.ENQ as there is room for all succeed. -/
theorem commandRun_rbEnq_fits (bs : List Byte) : ∀ {s : State}, PointersOk s →
    s.size.toNat + bs.length ≤ s.cfg.cap → ∃ t, commandRun (bs.map Instr.rbEnq) s = .next t ∧
      t.rspq = s.rspq ++ (bs.map fun _ => ([0x00, 0x00, 0x01] : List Byte)).flatten ∧
      t.size.toNat = s.size.toNat + bs.length ∧ t.cfg = s.cfg := by
  induction bs with
  | nil => exact fun {s} _ _ => ⟨s, rfl, (List.append_nil _).symm, rfl, rfl⟩
  | cons b r ih =>
    intro s hp hroom
    rw [List.length_cons] at hroom
    have hlt : s.size.toNat < s.cfg.cap := by omega
    have hsize : (finish .ok 1 [] (stored b s)).size.toNat = s.size.toNat + 1 := stored_size b hp hlt
    obtain ⟨t, hrun, hrspq, hsz, hcfg⟩ := ih (s := finish .ok 1 [] (stored b s)) (stored_pointersOk b hp hlt) (by
      rw [hsize]
      show _ ≤ s.cfg.cap
      omega)
    refine ⟨t, (commandRun_cons (i := .rbEnq b) (execRbEnq_stores b hp hlt) _).trans hrun, ?_, ?_, hcfg⟩
    · rw [hrspq, finish_rspq, List.append_assoc]
      rfl
    · rw [hsz, hsize, List.length_cons]
      omega

/-- Settles O45: the pointer invariant bounds SIZE after every run, and RB.ENQ answers OK while there is room. -/
theorem ringHoldsExactlyItsCapacity : Obligations.RingHoldsExactlyItsCapacity := by
  refine ⟨fun as s t hp hs h => ⟨?_, exec_rbFull t⟩, fun s bs b hp _ hempty hlen => ?_⟩
  · obtain ⟨hpt, -⟩ := atomicRun_keeps atomic_ringOk as ⟨hp, hs⟩ h
    exact size_le_cap hpt
  · obtain ⟨t, hrun, hrspq, hsize, hcfg⟩ := commandRun_rbEnq_fits bs hp (by omega)
    have hfull : t.size.toNat = t.cfg.cap := by rw [hsize, hcfg, hempty, hlen, Nat.zero_add]
    exact ⟨t, hrun, hrspq, hfull, execRbEnq_full b hfull⟩

/-! ### Pushes after a copy (R167, R244) -/

theorem RingHolds.trans {s t u : State} {p q : List Byte} (h : RingHolds s t p) (h' : RingHolds t u q) :
    RingHolds s u q :=
  ⟨h'.pointers, h'.store, fun hf => h'.free (h.free hf), h'.queue⟩

/-- Bytes offered to a queue one by one: those that fit are appended. -/
theorem offer_append_take {cap : Nat} {q : List Byte} (hq : q.length ≤ cap) (b : Byte) (r : List Byte) :
    offer cap q b ++ r.take (cap - (offer cap q b).length) = q ++ (b :: r).take (cap - q.length) := by
  unfold offer
  split
  · next hfull => simp [hfull]
  · next hne =>
    obtain ⟨n, hn⟩ : ∃ n, cap - q.length = n + 1 := ⟨cap - q.length - 1, by omega⟩
    have hlen : cap - (q ++ [b]).length = n := by rw [List.length_append, List.length_singleton]; omega
    rw [hn, hlen, List.take_succ_cons, List.append_assoc]
    rfl

theorem pushByte_completes {s : State} (b : Byte) (hp : PointersOk s) : ∃ t, pushByte b s = .next t := by
  rcases full_or_room hp with hfull | hlt
  · exact ⟨_, pushByte_full b hfull⟩
  · exact ⟨_, pushByte_stores b hp hlt⟩

/-- What pushes leave: those that fit are appended to the contents, and no field but STORE, TAIL, SIZE and the
acknowledges differs. -/
theorem atomicRun_pushes (bs : List Byte) : ∀ {s : State}, PointersOk s → StoreOk s →
    ∃ t, atomicRun (bs.map AtomicStep.push) s = .next t ∧
      RingHolds s t (contents s ++ bs.take (s.cfg.cap - (contents s).length)) ∧
      t = { s with store := t.store, tail := t.tail, size := t.size, acks := t.acks } := by
  induction bs with
  | nil =>
    intro s hp hs
    rw [List.take_nil, List.append_nil]
    exact ⟨s, rfl, .refl hp hs, rfl⟩
  | cons b r ih =>
    intro s hp hs
    have hroom : (contents s).length ≤ s.cfg.cap := (contents_length s).trans_le (size_le_cap hp)
    obtain ⟨u, hpush⟩ := pushByte_completes b hp
    have hu := pushByte_ringHolds hp hs hpush
    obtain ⟨t, hrun, ht, hframe⟩ := ih hu.pointers hu.store
    rw [pushByte_cfg hpush, hu.queue, offer_append_take hroom] at ht
    refine ⟨t, (atomicRun_cons (a := .push b) hpush _).trans hrun, hu.trans ht, ?_⟩
    rw [hframe, pushByte_next hpush]

/-- Settles O47: the old contents are the front of those that the pushes leave, and RB.CLEAR removes from the front. -/
theorem pushesNeverMoveTheCopiedWindow : Obligations.PushesNeverMoveTheCopiedWindow := by
  intro s bs n hp hs hn
  obtain ⟨t, hrun, ht, hframe⟩ := atomicRun_pushes bs hp hs
  obtain ⟨m, hclear, -⟩ := execRbClear_spec n ht.pointers ht.store
  refine ⟨t, _, hrun, ?_, ?_, hframe, hclear, ?_⟩
  · rw [hframe]
  · rw [ht.queue, List.take_left' (contents_length s)]
  · rw [(execRbClear_ringHolds ht.pointers ht.store hclear).queue, ht.queue,
      List.drop_append_of_le_length (by rwa [contents_length]), contents_length]

/-! ### First in, first out (R163) -/

theorem OnlyAnswers.completes {i : Instr} {s : State} (h : OnlyAnswers i s) : ∃ t, exec i s = .next t := by
  obtain ⟨_, _, _, h⟩ := h
  exact ⟨_, h s.rspq⟩

/-- A command that does not write the ring completes from every state with the pointer invariant. -/
theorem exec_completes_of_not_writesRing {i : Instr} {s : State} (hp : PointersOk s) (hi : writesRing i = false) :
    ∃ t, exec i s = .next t := by
  cases i
  case reset | rbEnq | rbDeq | rbEnqseq | rbClear => cases hi
  case escPut b => exact ⟨_, exec_escPut s s.escSt s.rspq b⟩
  case unePut b => exact ⟨_, exec_unePut s s.uneSt s.rspq b⟩
  case uneEnd =>
    by_cases h : s.uneSt = .escaped
    · exact ⟨_, exec_uneEnd_dangling h⟩
    · exact ⟨_, exec_uneEnd_ok h⟩
  case ckTest => exact (ckTest_onlyAnswers s).completes
  case send addr p => exact ⟨_, exec_send addr p s⟩
  case recv w => exact ⟨_, exec_recv rfl⟩
  case rbPeek off => exact (rbPeek_onlyAnswers hp off).completes
  case rbCopy start => exact (rbCopy_onlyAnswers hp start).completes
  all_goals exact ⟨_, rfl⟩

/-- The step completes, and the bytes it reports accepted and returned account for what it does to the contents. -/
def AccountsForBytes (a : AtomicStep) (s : State) : Prop :=
  ∃ t, atomic a s = .next t ∧
    contents s ++ reportedAccepted a (t.rspq.drop s.rspq.length) (t.acks.drop s.acks.length) =
      reportedReturned a (t.rspq.drop s.rspq.length) ++ contents t

/-- The reports are read from what the step appends. -/
theorem AccountsForBytes.of_appended {a : AtomicStep} {s t : State} {out : List Byte} {acks : List Bool}
    (h : atomic a s = .next t) (hout : t.rspq = s.rspq ++ out) (hacks : t.acks = s.acks ++ acks)
    (hq : contents s ++ reportedAccepted a out acks = reportedReturned a out ++ contents t) : AccountsForBytes a s :=
  ⟨t, h, by rw [hout, hacks, List.drop_left, List.drop_left]; exact hq⟩

section Accounts

variable {s : State} (hp : PointersOk s) (hs : StoreOk s)
include hp

theorem contents_eq_cons (h : s.size ≠ 0) :
    contents s = Memory.read s.store s.head.toNat :: (contents s).drop 1 := by
  have hlen : 0 < (contents s).length := by rwa [contents_length, ← size_ne_zero_iff]
  rw [← phys_zero hp, ← contents_getElem hlen]
  exact (List.cons_getElem_drop_succ (h := hlen)).symm

theorem accountsForBytes_of_not_writesRing {i : Instr} (hi : writesRing i = false) :
    AccountsForBytes (.command i) s := by
  obtain ⟨t, h⟩ := exec_completes_of_not_writesRing hp hi
  have hreset : i ≠ .reset := fun e => by rw [e] at hi; cases hi
  obtain ⟨-, -, hacks, -, -, out, hout⟩ := exec_outside hreset h
  refine .of_appended (acks := []) h hout.symm (hacks.trans (List.append_nil _).symm) ?_
  have hsilent : reportedAccepted (.command i) out [] = [] ∧ reportedReturned (.command i) out = [] := by
    cases i
    case rbEnq | rbDeq | rbEnqseq => cases hi
    all_goals exact ⟨rfl, rfl⟩
  obtain ⟨hacc, hret⟩ := hsilent
  rw [hacc, hret, List.append_nil, List.nil_append, (exec_sameRing hi h).contents]

include hs

theorem accountsForBytes_push (b : Byte) : AccountsForBytes (.push b) s := by
  rcases full_or_room hp with hfull | hlt
  · exact .of_appended (out := []) (acks := [false]) (pushByte_full b hfull) (List.append_nil _).symm rfl
      (List.append_nil _)
  · exact .of_appended (out := []) (acks := [true]) (pushByte_stores b hp hlt) (List.append_nil _).symm rfl
      (stored_contents b hp hs.1 hlt).symm

theorem accountsForBytes_rbEnq (b : Byte) : AccountsForBytes (.command (.rbEnq b)) s := by
  rcases full_or_room hp with hfull | hlt
  · exact .of_appended (acks := []) (execRbEnq_full b hfull) rfl (List.append_nil _).symm (List.append_nil _)
  · exact .of_appended (acks := []) (execRbEnq_stores b hp hlt) rfl (List.append_nil _).symm
      (stored_contents b hp hs.1 hlt).symm

theorem accountsForBytes_rbEnqseq (d : List Byte) : AccountsForBytes (.command (.rbEnqseq d)) s := by
  obtain ⟨t, hrun, -, -, -, hq, hframe, -⟩ := enqueueAll_spec d hp hs
  have hrspq : t.rspq = s.rspq := by rw [hframe]
  have hacks : t.acks = s.acks ++ [] := by rw [hframe, List.append_nil]
  refine .of_appended (acks := []) (execRbEnqseq_of_enqueueAll hrun) (congrArg (· ++ _) hrspq) hacks ?_
  have ⟨_, hcap, _⟩ := hp
  show contents s ++ d.take (be16 (hiByte (half _)) (loByte (half _))).toNat = contents t
  rw [be16_hiByte_loByte, half_toNat (by omega), hq]
  congr 1
  rw [List.take_eq_take_iff]
  omega

theorem accountsForBytes_rbDeq : AccountsForBytes (.command .rbDeq) s := by
  by_cases h : s.size = 0
  · exact .of_appended (acks := []) (execRbDeq_empty h) rfl (List.append_nil _).symm (List.append_nil _)
  · have hdeq := execRbDeq_takes hp h
    refine .of_appended (acks := []) hdeq rfl (List.append_nil _).symm ?_
    show contents s ++ [] = loByte (zext16 (Memory.read s.store s.head.toNat)) :: contents _
    rw [(execRbDeq_ringHolds hp hs hdeq).queue, loByte_zext16, List.append_nil, ← contents_eq_cons hp h]

/-- Every atomic step but RB.CLEAR and RESET. -/
theorem accountsForBytes {a : AtomicStep} (hreset : a ≠ .command .reset)
    (hclear : ∀ upto, a ≠ .command (.rbClear upto)) : AccountsForBytes a s := by
  cases a with
  | push b => exact accountsForBytes_push hp hs b
  | command i =>
    cases hw : writesRing i with
    | false => exact accountsForBytes_of_not_writesRing hp hw
    | true =>
      cases i <;> simp only [writesRing, Bool.false_eq_true] at hw
      case reset => exact absurd rfl hreset
      case rbEnq b => exact accountsForBytes_rbEnq hp hs b
      case rbDeq => exact accountsForBytes_rbDeq hp hs
      case rbEnqseq d => exact accountsForBytes_rbEnqseq hp hs d
      case rbClear upto => exact absurd rfl (hclear upto)

end Accounts

theorem fifoRun_cons {a : AtomicStep} {r : List AtomicStep} {s t u : State} {accepted returned : List Byte}
    (h : atomic a s = .next t) (hr : fifoRun r t = some (accepted, returned, u)) :
    fifoRun (a :: r) s =
      some (reportedAccepted a (t.rspq.drop s.rspq.length) (t.acks.drop s.acks.length) ++ accepted,
        reportedReturned a (t.rspq.drop s.rspq.length) ++ returned, u) := by
  simp only [fifoRun, h, hr]

/-- Settles O46, by induction over the run: each step accounts for its bytes and keeps the ring's invariants. -/
theorem bytesLeaveInTheOrderAccepted : Obligations.BytesLeaveInTheOrderAccepted := by
  intro as
  induction as with
  | nil => exact fun s _ _ _ => ⟨[], [], s, rfl, List.append_nil _⟩
  | cons a r ih =>
    intro s hp hs has
    obtain ⟨hreset, hclear⟩ := has a List.mem_cons_self
    obtain ⟨t, hstep, hq⟩ := accountsForBytes hp hs hreset hclear
    obtain ⟨hpt, hst⟩ := atomic_ringOk a s t ⟨hp, hs⟩ hstep
    obtain ⟨accepted, returned, u, hrun, hqu⟩ := ih t hpt hst fun a' ha' => has a' (List.mem_cons_of_mem a ha')
    refine ⟨_, _, u, fifoRun_cons hstep hrun, ?_⟩
    rw [← List.append_assoc, hq, List.append_assoc, hqu, List.append_assoc]

end Sys2Proof.Machine
end

section
/-! PROOFS. The statements of spec/44_system.md: NOP (R180), RESET (R181, R182), the two commands of CTRL (R183, R184)
and the STATUS view (R185). -/

namespace Sys2Proof.Machine

/-! ### NOP and RESET (R180 to R182) -/

/-- Settles O14: NOP only appends its response. -/
theorem nopAnswersOkAndWritesNothing : Obligations.NopAnswersOkAndWritesNothing :=
  ⟨fun _ => rfl, fun _ => rfl⟩

/-- Settles O15: the response of RESET is appended to the queue that `resetState` has emptied. -/
theorem resetCommandLeavesOnlyItsOwnResponse : Obligations.ResetCommandLeavesOnlyItsOwnResponse :=
  ⟨fun _ => rfl, fun _ => rfl⟩

/-! ### CTRL (R34, R183, R184) -/

/-- A mask already applied by the write changes nothing when CTRL is read. -/
theorem readCtrl_writeCtrl (a : Byte) (s : State) : readCtrl (writeCtrl a s) = a &&& 0x03 := by
  rw [readCtrl, writeCtrl_ctrl, BitVec.and_assoc, BitVec.and_self]

theorem readCtrl_of_ctrlOk {s : State} (h : CtrlOk s) : readCtrl s = s.ctrl := by
  apply BitVec.eq_of_toNat_eq
  rw [readCtrl, BitVec.toNat_and]
  exact Nat.and_two_pow_sub_one_of_lt_two_pow (n := 2) (Nat.lt_succ_of_le h)

theorem exec_wrctrl (a : Byte) (s : State) :
    exec (.wrctrl a) s = .next { s with ctrl := a &&& 0x03, rspq := s.rspq ++ [0x00, 0x00, a &&& 0x03] } := by
  show execWrctrl a s = _
  unfold execWrctrl
  rw [readCtrl_writeCtrl, finish_eq, response_zext16]
  rfl

theorem exec_rdctrl (s : State) :
    exec .rdctrl s = .next { s with rspq := s.rspq ++ [0x00, 0x00, s.ctrl &&& 0x03] } := by
  show execRdctrl s = _
  unfold execRdctrl
  rw [finish_eq, response_zext16, readCtrl]

/-- Settles O16, command by command; a CTRL of at most 3 is its own masked value. -/
theorem controlRegisterKeepsTwoBits : Obligations.ControlRegisterKeepsTwoBits :=
  ⟨fun _ => rfl, fun _ _ => rfl, fun s a => ⟨exec_wrctrl a s, exec_rdctrl s, readCtrl_of_ctrlOk⟩⟩

/-! ### The STATUS view (R35, R185) -/

/-- The four fields of STATUS do not overlap, so each is read back as it was put in. -/
theorem statusView_fields (s : State) :
    (statusView s).getLsbD 0 = ringEmpty s ∧ (statusView s).getLsbD 1 = ringFull s ∧
      (statusView s).getLsbD 2 = (s.escSt == .first) ∧
      (statusView s).extractLsb' 3 2 = (UneState.code s.uneSt).setWidth 2 ∧ (statusView s).extractLsb' 5 11 = 0 := by
  unfold statusView
  generalize ringEmpty s = empty, ringFull s = full, (s.escSt == .first) = escFirst, s.uneSt = une
  revert empty full escFirst
  cases une <;> decide

/-- Settles O17: the fields of STATUS, with each flag as the condition it stands for. -/
theorem rdstatReportsTheStatusView : Obligations.RdstatReportsTheStatusView := by
  refine ⟨fun _ => rfl, fun s => ⟨statusView s, rfl, ?_⟩⟩
  obtain ⟨hempty, hfull, hfirst, hune, hzero⟩ := statusView_fields s
  rw [hempty, hfull, hfirst, hune]
  exact ⟨beq_iff_eq, beq_iff_eq, beq_iff_eq, fun h => h ▸ rfl, fun h => h ▸ rfl, fun h => h ▸ rfl, hzero⟩

end Sys2Proof.Machine
end

section
/-! PROOFS. The statements of spec/60_exceptions.md: no step stops the block (R201, R210), a command that fails changes
nothing but RSPQ, with two exceptions (R202), and the commands that can answer only OK (R203). -/

namespace Sys2Proof.Machine

/-! ### Every command and every port event completes (R201, R210) -/

/-- From every state with the ring's invariants a command completes. -/
theorem exec_completes {s : State} (hp : PointersOk s) (hs : StoreOk s) (i : Instr) : ∃ t, exec i s = .next t := by
  cases hw : writesRing i with
  | false => exact exec_completes_of_not_writesRing hp hw
  | true =>
    cases i <;> simp only [writesRing, Bool.false_eq_true] at hw
    case reset => exact ⟨_, rfl⟩
    case rbEnq b =>
      rcases full_or_room hp with hfull | hlt
      · exact ⟨_, execRbEnq_full b hfull⟩
      · exact ⟨_, execRbEnq_stores b hp hlt⟩
    case rbDeq =>
      by_cases hempty : s.size = 0
      · exact ⟨_, execRbDeq_empty hempty⟩
      · exact ⟨_, execRbDeq_takes hp hempty⟩
    case rbEnqseq d =>
      obtain ⟨t, hrun, -⟩ := enqueueAll_spec d hp hs
      exact ⟨_, execRbEnqseq_of_enqueueAll hrun⟩
    case rbClear upto =>
      obtain ⟨m, hclear, -⟩ := execRbClear_spec upto hp hs
      exact ⟨_, hclear⟩

theorem runParsed_completes {s : State} (hp : PointersOk s) (hs : StoreOk s) : ∃ t, runParsed s = .next t := by
  unfold runParsed
  split
  · next i rest _ => exact exec_completes (s := { s with cpb := rest }) hp hs i
  · exact ⟨_, rfl⟩
  · exact ⟨_, rfl⟩

theorem readResponse_completes (s : State) : ∃ t, readResponse s = .next t := by
  cases h : s.rspq with
  | nil => exact ⟨_, readResponse_nil h⟩
  | cons b r => exact ⟨_, readResponse_cons h⟩

/-- No port event stops the block while the ring's invariants hold. -/
theorem deliver_completes {s : State} (hp : PointersOk s) (hs : StoreOk s) (e : PortEvent) :
    ∃ t, deliver e s = .next t := by
  cases e with
  | cmdByte b => exact runParsed_completes (s := { s with cpb := s.cpb ++ [b] }) hp hs
  | push b => exact pushByte_completes b hp
  | hostRead => exact readResponse_completes s
  | resetInput => exact ⟨_, rfl⟩

/-- Settles O51: an idle step keeps the state, and every port event completes. -/
theorem noStepStopsTheBlock : Obligations.NoStepStopsTheBlock := by
  intro s hi
  obtain ⟨hl, hp, hs, -⟩ := hi
  unfold SafeStep
  cases hin : s.inputs with
  | nil => exact ⟨s, step_idle hl hin⟩
  | cons e es =>
    rw [step_event hl hin]
    exact deliver_completes (s := withInputs es s) hp hs e

/-! ### The commands that answer only OK (R203) -/

/-- From `s` the command completes with status OK: its response follows what RSPQ held, or stands alone after RESET. -/
def AnswersOk (i : Instr) (s : State) : Prop :=
  ∃ t res tl, exec i s = .next t ∧ t.rspq = (if i = .reset then [] else s.rspq) ++ response .ok res tl

/-- A command other than RESET that ends in `finish` with status OK. -/
theorem AnswersOk.of_finish {i : Instr} {s u : State} {res : Half} {tl : List Byte} (hi : i ≠ .reset)
    (h : exec i s = .next (finish .ok res tl u)) (hu : u.rspq = s.rspq) : AnswersOk i s :=
  ⟨_, res, tl, h, by rw [if_neg hi, finish_rspq, hu]⟩

/-- The 19 commands of R203. -/
def answersOnlyOk : Instr → Bool
  | .uneEnd | .ckTest | .send _ _ | .recv _ | .rbEnq _ | .rbDeq | .rbEnqseq _ | .rbPeek _ | .rbCopy _ => false
  | _ => true

/-- Each command of R203 answers OK from every state with the ring's invariants. -/
theorem exec_answersOk {i : Instr} {s : State} (hp : PointersOk s) (hs : StoreOk s) (hi : answersOnlyOk i = true) :
    AnswersOk i s := by
  cases i <;> simp only [answersOnlyOk, Bool.false_eq_true] at hi
  case reset => exact ⟨_, 0, [], rfl, rfl⟩
  case escPut b =>
    obtain ⟨t, h⟩ := exec_completes hp hs (.escPut b)
    obtain ⟨res, tl, e⟩ := execEscPut_next h
    exact .of_finish nofun (h.trans (congrArg _ e)) rfl
  case unePut b =>
    obtain ⟨t, h⟩ := exec_completes hp hs (.unePut b)
    obtain ⟨res, tl, e⟩ := execUnePut_next h
    exact .of_finish nofun (h.trans (congrArg _ e)) rfl
  case rbClear upto =>
    obtain ⟨t, h⟩ := exec_completes hp hs (.rbClear upto)
    obtain ⟨res, e⟩ := execRbClear_next h
    exact .of_finish nofun (h.trans (congrArg _ e)) rfl
  all_goals exact .of_finish nofun rfl rfl

/-- Settles O54: the listed commands are those of `answersOnlyOk`, and a push leaves RSPQ alone. -/
theorem someCommandsAnswerOnlyOk : Obligations.SomeCommandsAnswerOnlyOk := by
  intro s b upto hinv
  obtain ⟨-, hp, hs, -⟩ := hinv
  refine ⟨fun i hi => ?_, ?_⟩
  · have honly : answersOnlyOk i = true := List.all_eq_true.1 (by rfl) i hi
    exact exec_answersOk hp hs honly
  · obtain ⟨t, h⟩ := pushByte_completes b hp
    exact ⟨t, h, by rw [pushByte_next h]⟩

/-! ### A command that fails (R202) -/

/-- A response determines its status byte, its RESULT and its tail. -/
theorem response_fields {q tl tail : List Byte} {status : Status} {r res : Half} {st : Byte}
    (h : q ++ response status r tl = q ++ ([st, hiByte res, loByte res] ++ tail)) :
    status.code = st ∧ r = res ∧ tl = tail := by
  rw [List.append_right_inj, response_eq] at h
  simp only [List.cons_append, List.nil_append, List.cons.injEq] at h
  obtain ⟨hst, hhi, hlo, htl⟩ := h
  refine ⟨hst, ?_, htl⟩
  rw [← be16_hiByte_loByte r, hhi, hlo, be16_hiByte_loByte]

/-- From `s` the command answers OK, or it ends in `fail`, the shared way a command fails (R12). -/
def OkOrFails (i : Instr) (s : State) : Prop := AnswersOk i s ∨ ∃ status, exec i s = .next (fail status s)

section

variable {s : State}

theorem ckTest_okOrFails : OkOrFails .ckTest s := by
  by_cases h : s.ckAcc ≠ 0xFF
  · exact .inr ⟨.checksumMismatch, if_pos h⟩
  · exact .inl (.of_finish nofun (if_neg h) rfl)

theorem send_okOrFails (addr : Half) (p : List Byte) : OkOrFails (.send addr p) s := by
  by_cases h : s.cfg.maxPayload < p.length
  · exact .inr ⟨.payloadTooLarge, if_pos h⟩
  · exact .inl (.of_finish nofun (if_neg h) rfl)

theorem recv_okOrFails (w : List Byte) : OkOrFails (.recv w) s := by
  cases h : parseWindow s.cfg.rinSize (s.ctrl.getLsbD 0) w with
  | accepted u n => exact .inl (.of_finish nofun (exec_recv h) rfl)
  | rejected status => exact .inr ⟨status, exec_recv h⟩

theorem rbEnq_okOrFails (hp : PointersOk s) (b : Byte) : OkOrFails (.rbEnq b) s := by
  rcases full_or_room hp with hfull | hlt
  · exact .inr ⟨.bufferFull, execRbEnq_full b hfull⟩
  · exact .inl (.of_finish nofun (execRbEnq_stores b hp hlt) rfl)

theorem rbDeq_okOrFails (hp : PointersOk s) : OkOrFails .rbDeq s := by
  by_cases hempty : s.size = 0
  · exact .inr ⟨.bufferUnderrun, execRbDeq_empty hempty⟩
  · exact .inl (.of_finish nofun (execRbDeq_takes hp hempty) rfl)

theorem rbPeek_okOrFails (hp : PointersOk s) (off : Half) : OkOrFails (.rbPeek off) s := by
  by_cases hempty : s.size = 0
  · exact .inr ⟨.bufferUnderrun, execRbPeek_empty hempty⟩
  rcases Nat.lt_or_ge off.toNat s.size.toNat with hlt | hge
  · exact .inl (.of_finish nofun (execRbPeek_reads hp hlt) rfl)
  · exact .inr ⟨.outOfRange, execRbPeek_outOfRange hempty hge⟩

theorem rbCopy_okOrFails (hp : PointersOk s) (start : Half) : OkOrFails (.rbCopy start) s := by
  by_cases hempty : s.size = 0
  · exact .inr ⟨.bufferUnderrun, execRbCopy_empty hempty⟩
  rcases Nat.lt_or_ge start.toNat s.size.toNat with hlt | hge
  · exact .inl (.of_finish nofun (execRbCopy_reads hp hlt) rfl)
  · exact .inr ⟨.outOfRange, execRbCopy_outOfRange hempty hge⟩

/-- Every command but the two that R202 excepts. -/
theorem exec_okOrFails {i : Instr} (hp : PointersOk s) (hs : StoreOk s) (hend : i ≠ .uneEnd)
    (hseq : ∀ d, i ≠ .rbEnqseq d) : OkOrFails i s := by
  cases hi : answersOnlyOk i with
  | true => exact .inl (exec_answersOk hp hs hi)
  | false =>
    cases i <;> simp only [answersOnlyOk, Bool.true_eq_false] at hi
    case uneEnd => exact absurd rfl hend
    case rbEnqseq d => exact absurd rfl (hseq d)
    case ckTest => exact ckTest_okOrFails
    case send addr p => exact send_okOrFails addr p
    case recv w => exact recv_okOrFails w
    case rbEnq b => exact rbEnq_okOrFails hp b
    case rbDeq => exact rbDeq_okOrFails hp
    case rbPeek off => exact rbPeek_okOrFails hp off
    case rbCopy start => exact rbCopy_okOrFails hp start

end

theorem enqueue_refused {b : Byte} {s t : State} (h : enqueue b s = some (false, t)) : t = s := by
  unfold enqueue at h
  split at h
  · cases h; rfl
  · split at h <;> cases h

/-- The bytes that R153's loop accepted, offered alone, are accepted with the same effect. -/
theorem enqueueAll_take (d : List Byte) : ∀ {s t : State} {n : Nat}, enqueueAll d s = some (n, t) →
    enqueueAll (d.take n) s = some (n, t) := by
  induction d with
  | nil =>
    intro s t n h
    rwa [List.take_nil]
  | cons b r ih =>
    intro s t n h
    unfold enqueueAll at h
    split at h
    · cases h
    · next u hu =>
      cases h
      rw [enqueue_refused hu]
      rfl
    · next u hu =>
      split at h
      · cases h
      · next m v hv =>
        cases h
        rw [List.take_succ_cons, enqueueAll, hu]
        simp only [ih hv]

section

variable {s t : State} {st : Byte} {res : Half} {tail : List Byte}
  (hr : t.rspq = s.rspq ++ ([st, hiByte res, loByte res] ++ tail))
include hr

/-- R202's exception RB.ENQSEQ: RESULT is the count accepted, whatever the status, and that many bytes were enqueued. -/
theorem rbEnqseq_enqueues_result {d : List Byte} (hp : PointersOk s) (hs : StoreOk s)
    (ht : exec (.rbEnqseq d) s = .next t) :
    tail = [] ∧ ∃ u : State, enqueueAll (d.take res.toNat) s = some (res.toNat, u) ∧
      t = { u with rspq := t.rspq } := by
  obtain ⟨u, hrun, -, -, -, -, hframe, -⟩ := enqueueAll_spec d hp hs
  have hq : u.rspq = s.rspq := by rw [hframe]
  cases (execRbEnqseq_of_enqueueAll hrun).symm.trans ht
  rw [finish_rspq, hq] at hr
  obtain ⟨-, hres, htail⟩ := response_fields hr
  have ⟨_, hcap, _⟩ := hp
  have hcount : res.toNat = min d.length (s.cfg.cap - s.size.toNat) := by
    rw [← hres, half_toNat (by omega)]
  rw [hcount]
  exact ⟨htail.symm, u, enqueueAll_take d hrun, rfl⟩

variable (hst : st ≠ 0x00)
include hst

/-- R202 for the commands that fail by `fail`. -/
theorem OkOrFails.unchanged {i : Instr} (ht : exec i s = .next t) (hi : i ≠ .reset) (h : OkOrFails i s) :
    tail = [] ∧ res = 0 ∧ t = { s with rspq := t.rspq } := by
  obtain ⟨u, r, tl, hu, hok⟩ | ⟨status, hu⟩ := h <;> cases hu.symm.trans ht
  · rw [if_neg hi, hr] at hok
    obtain ⟨hcode, -⟩ := response_fields hok.symm
    exact absurd hcode.symm hst
  · obtain ⟨-, hres, htail⟩ := response_fields hr
    exact ⟨htail.symm, hres.symm, rfl⟩

/-- RESET's only response is OK, and it is all that RSPQ then holds. -/
theorem reset_not_failed (ht : exec .reset s = .next t) : False := by
  cases ht
  have hlen := congrArg List.length hr
  simp only [finish_rspq, resetState_rspq, List.length_append, List.length_cons, List.length_nil,
    response_length] at hlen
  have hempty : s.rspq = [] := List.eq_nil_of_length_eq_zero (by omega)
  rw [hempty] at hr
  obtain ⟨hcode, -⟩ := response_fields hr
  exact hst hcode.symm

/-- R202's exception UNE.END. -/
theorem uneEnd_failed (ht : exec .uneEnd s = .next t) :
    tail = [] ∧ res = 0 ∧ t = { s with uneSt := .first, rspq := t.rspq } := by
  by_cases h : s.uneSt = .escaped
  · cases (exec_uneEnd_dangling h).symm.trans ht
    obtain ⟨-, hres, htail⟩ := response_fields (status := .danglingEscape) (r := 0) (tl := []) hr
    exact ⟨htail.symm, hres.symm, rfl⟩
  · cases (exec_uneEnd_ok h).symm.trans ht
    obtain ⟨hcode, -⟩ := response_fields (status := .ok) (r := 0) (tl := []) hr
    exact absurd hcode.symm hst

end

/-- Settles O53: RESET cannot fail, the two exceptions of R202 have their own lemmas, and every other command answers OK
or ends in `fail`. -/
theorem failedCommandsChangeNothing : Obligations.FailedCommandsChangeNothing := by
  intro i s t st res tail hp hs ht hr hst
  cases i
  case reset => exact (reset_not_failed hr hst ht).elim
  case uneEnd => exact uneEnd_failed hr hst ht
  case rbEnqseq d => exact rbEnqseq_enqueues_result hr hp hs ht
  all_goals exact OkOrFails.unchanged hr hst ht nofun (exec_okOrFails hp hs nofun nofun)

end Sys2Proof.Machine
end

section
/-! PROOFS. The statement of spec/70_reset_and_hazards.md: the reset input gives every piece of state its reset value
(R230, R231). -/

namespace Sys2Proof.Machine

/-! ### The reset input (R230, R231) -/

theorem step_resetInput {s : State} {es : List PortEvent} (hl : s.cfg.Legal) (hi : s.inputs = .resetInput :: es) :
    step s = .next (resetState { s with inputs := es }) := step_event hl hi

/-- After a reset the pointer invariant holds for every legal CAP (R27). -/
theorem resetState_pointersOk {s : State} (hl : s.cfg.Legal) : PointersOk (resetState s) := by
  obtain ⟨hpos, hmax, -⟩ := hl
  exact (resetState_sameRing s).pointersOk (resetWith_pointersOk hpos hmax)

/-- After a reset the free-slot invariant holds (R28). -/
theorem resetState_freeSlotsZero (s : State) : FreeSlotsZero (resetState s) :=
  (resetState_sameRing s).freeSlotsZero (resetWith_freeSlotsZero s.cfg)

/-- Settles O10: the reset input runs `resetState` and nothing else, and the state it leaves has the ring of the reset
state, from which both ring invariants carry over. -/
theorem resetInputSetsEveryRegister : Obligations.ResetInputSetsEveryRegister := by
  intro s es hl hi
  exact ⟨_, step_resetInput hl hi, rfl, Memory.read_nil, resetState_pointersOk hl, resetState_freeSlotsZero _⟩

end Sys2Proof.Machine
end
